-- ==== Sys2Proof/Word.lean ====
section
/-! DEFINITION. The words the machine computes with: bytes (general registers, data space), 16-bit
words (program memory, register pairs, data addresses) and register numbers. -/
namespace Sys2Proof

/-- The contents of a general register or of one location of data space (10_state.md R20, R31). -/
abbrev Byte := BitVec 8

/-- A word of program memory, or the value of a register pair (10_state.md R21, R30). -/
abbrev Word := BitVec 16

/-- The number of a general register, R0 to R31 (10_state.md R20). -/
abbrev RegNum := Fin 32

end Sys2Proof
end

