-- ==== Sys2Proof/Config.lean ====
section
/-! DEFINITION. What a device fixes (the named parameters of 00_scope.md R5) and the one free value of
the model, the byte an I/O read draws. -/
namespace Sys2Proof

/-- The four core variants of the source's cycles tables (00_scope.md R1, R2). -/
inductive CoreVariant where
  | avre
  | avrxm
  | avrxt
  | avrrc
  deriving DecidableEq, Repr

/-- What stands at one address of data space (20_memory.md R44, R47). -/
inductive AddrClass where
  /-- An alias of general register Ri (R48). -/
  | reg (i : RegNum)
  /-- SREG as a byte (10_state.md R28). -/
  | sreg
  /-- RAMPD, zero-extended to a byte (R44). -/
  | rampd
  /-- A memory byte (R44). -/
  | ram
  /-- An I/O register: every read is a draw (R49). -/
  | io
  /-- Nothing: a read is refused (R50). -/
  | unmapped
  deriving DecidableEq, Repr

/-- What stands in a whole range of data-space addresses. -/
inductive RegionKind where
  /-- The register file from register `first` upwards: the range's lowest address is R`first`. -/
  | regFile (first : Nat)
  | sreg
  | rampd
  | ram
  | io
  | unmapped
  deriving DecidableEq, Repr

/-- One row of a data-space map: the addresses `lo` to `hi`, both included. -/
structure Region where
  lo : Nat
  hi : Nat
  kind : RegionKind
  deriving DecidableEq, Repr

/-- The named parameters of 00_scope.md R5, fixed for a run. RAMEND is not among them: it is the
argument of the default data-space map (`classicMap`). DESIGN CHOICE (log 1): they are held in State,
so that every statement holds for every device; no step changes them. -/
structure Config where
  /-- CORE. -/
  core : CoreVariant
  /-- HAS_ADIW. -/
  hasAdiw : Bool
  /-- HAS_LDS32. -/
  hasLds32 : Bool
  /-- HAS_MOVW. -/
  hasMovw : Bool
  /-- HAS_LDD. -/
  hasLdd : Bool
  /-- ADMIT_GK: the rows whose opcode is from general knowledge are admitted. -/
  admitGk : Bool
  /-- PC_BITS: bounds FLASH_WORDS and nothing else. -/
  pcBits : Nat
  /-- FLASH_WORDS: the number of 16-bit words of program memory. -/
  flashWords : Nat
  /-- ENTRY: the word address where a run starts. -/
  entry : Nat
  /-- END: the word address at which a run is over (70_reset_and_hazards.md R184). -/
  endAddr : Nat
  /-- RAMPD_BITS: the width of RAMPD, 0 for a device without it. -/
  rampdBits : Nat
  /-- RAMPZ_BITS: the width of the register that extends Z; only 0 is modelled (D24). -/
  rampzBits : Nat
  /-- DSMAP, as a list of ranges; the first range that holds an address classifies it, and an
  address no range holds is Unmapped (log 8). -/
  dsmap : List Region
  deriving DecidableEq, Repr

/-- FREE VALUE (20_memory.md R49, log 9): the byte the n-th read of an I/O address returns. It has no
body, so nothing is known of it; a claim that holds, holds for every value of every draw. -/
opaque Config.ioDraw : Nat → Byte

end Sys2Proof
end

