-- ==== Sys2Proof/Machine/Device.lean ====
section
/-! DEFINITION. A device: the default data-space map, the default parameters, which parameter values make
sense together, and the classification of a data-space address. -/
namespace Sys2Proof

/-- The classic map of 20_memory.md R47, the spec's default DSMAP. -/
def classicMap (ramEnd : Nat) : List Region :=
  [ ⟨0x0000, 0x001F, .regFile 0⟩,
    ⟨0x0020, 0x005E, .io⟩,
    ⟨0x005F, 0x005F, .sreg⟩,
    ⟨0x0060, ramEnd, .ram⟩ ]

/-- The defaults of 00_scope.md R5 for a core variant. Where R5 says open (PC_BITS, FLASH_WORDS, END) the
values are the model's: PC_BITS 16, FLASH_WORDS 2^16, END = FLASH_WORDS (DESIGN CHOICE, log 4). -/
def Config.forCore (core : CoreVariant) : Config where
  core := core
  hasAdiw := core != .avrrc
  hasLds32 := true
  hasMovw := true
  hasLdd := core != .avrrc
  admitGk := true
  pcBits := 16
  flashWords := 65536
  entry := 0
  endAddr := 65536
  rampdBits := 0
  rampzBits := 0
  dsmap := classicMap 0x08FF

/-- A range of a data-space map of 2^width addresses is sound: not empty, inside the space, and no
register past R31. -/
def Region.sound (width : Nat) (r : Region) : Bool :=
  decide (r.lo ≤ r.hi) && decide (r.hi < 2 ^ width) &&
    match r.kind with
    | .regFile first => decide (first + (r.hi - r.lo) ≤ 31)
    | .sreg => true
    | .rampd => true
    | .ram => true
    | .io => true
    | .unmapped => true

/-- The bounds 00_scope.md R5 and R2 set on the parameters: FLASH_WORDS ≤ 2^PC_BITS,
ENTRY ≤ END ≤ FLASH_WORDS, RAMPD_BITS ≤ 8, and no ADIW and no LDD on AVRrc. -/
def Config.wf (c : Config) : Bool :=
  decide (c.flashWords ≤ 2 ^ c.pcBits) && decide (c.entry ≤ c.endAddr) &&
    decide (c.endAddr ≤ c.flashWords) && decide (c.rampdBits ≤ 8) &&
    (c.core != .avrrc || (!c.hasAdiw && !c.hasLdd)) &&
    c.dsmap.all (Region.sound (16 + c.rampdBits))

/-- The address a lies in the range. -/
def Region.holds (r : Region) (a : Nat) : Bool := decide (r.lo ≤ a) && decide (a ≤ r.hi)

/-- What stands at address a of a range that holds it. -/
def Region.classAt (r : Region) (a : Nat) : AddrClass :=
  match r.kind with
  | .regFile first => .reg (Fin.ofNat 32 (first + (a - r.lo)))
  | .sreg => .sreg
  | .rampd => .rampd
  | .ram => .ram
  | .io => .io
  | .unmapped => .unmapped

/-- DSMAP(a) (20_memory.md R47): the first range that holds a; none is Unmapped. -/
def Config.classify (c : Config) (a : Nat) : AddrClass :=
  match c.dsmap.find? fun r => r.holds a with
  | some r => r.classAt a
  | none => .unmapped

end Sys2Proof
end

