-- ==== Sys2Proof/Machine/State.lean ====
section
/-! DEFINITION. The state of the machine as plain data, the reasons a step can stop, and the state from
which a run starts when nothing has been placed. -/
namespace Sys2Proof.Machine

/-- The Status Register: eight separate one-bit flags, in the source's order (10_state.md R26). -/
structure Flags where
  i : Bool
  t : Bool
  h : Bool
  s : Bool
  v : Bool
  n : Bool
  z : Bool
  c : Bool
  deriving DecidableEq, Repr

/-- The bytes of a memory: address and byte, addresses strictly rising, no byte that an unlisted address
reads as (Memory.wf). -/
abbrev Memory := List Host.Cell

/-- Everything the spec gives the machine; INVENTORY.md's State section names the rule of each field. -/
structure State where
  /-- The device's parameters (00_scope.md R5), constant during a run (log 1). -/
  cfg : Config
  /-- R0 to R31 (10_state.md R20). -/
  regs : Vector Byte 32
  /-- PC, a word address, 0 to FLASH_WORDS inclusive (10_state.md R24, R25). -/
  pc : Nat
  /-- SREG (10_state.md R26). -/
  flags : Flags
  /-- RAMPD, of which the low RAMPD_BITS bits exist (10_state.md R29). -/
  rampd : Byte
  /-- Program memory PM: bytes 2a (low) and 2a+1 (high) are the word at word address a (10_state.md R30,
  20_memory.md R41). -/
  pm : Memory
  /-- The Ram-class bytes of data space, by data-space address (20_memory.md R44). -/
  ram : Memory
  /-- THE MODEL'S OWN: how many Io draws have been made (20_memory.md R49, log 9). -/
  draws : Nat
  deriving DecidableEq, Repr

/-- No instruction in scope raises a synchronous exception and the hardware stops on nothing
(60_exceptions.md R160), so there is no fault: nothing raises one (safe). -/
inductive Fault where
  deriving DecidableEq, Repr

/-- The refusals of 60_exceptions.md R160 (each `refuse(reason)` of the spec): the model gives the step no
meaning. All are safe: the model stops where a chip goes on. -/
inductive Refusal where
  /-- core_not_modelled: raised by fetch when CORE = AVRrc (70_reset_and_hazards.md R182); safe. -/
  | coreNotModelled
  /-- pc_out_of_range: raised by fetch for a first or second word at or past FLASH_WORDS
  (10_state.md R25); safe. -/
  | pcOutOfRange
  /-- opcode_not_in_spec: raised by fetch for a word that matches no admitted row
  (30_encoding.md R74); safe. -/
  | opcodeNotInSpec
  /-- instruction_not_on_this_device: raised by fetch for a row whose availability parameter is false
  (30_encoding.md R75); safe. -/
  | instructionNotOnThisDevice
  /-- ld_postinc_into_Z: raised by LD Rd,Z+ with d = 30 or 31 (42_load.md R122); safe. -/
  | ldPostincIntoZ
  /-- ld_predec_into_Z: raised by LD Rd,-Z with d = 30 or 31 (42_load.md R123); safe. -/
  | ldPredecIntoZ
  /-- Raised by the LD and LDD forms when RAMPZ_BITS > 0, which the spec does not model
  (92_eei_decisions.md D24, "otherwise refused"; log 12); safe. -/
  | rampzNotModelled
  /-- unmapped_data_address: raised by LDS, LD and LDD on an address of class Unmapped
  (20_memory.md R50); safe. -/
  | unmappedDataAddress
  /-- An instruction of the table whose meaning has not been written: raised by no arm of exec; safe. -/
  | notModelled (mnemonic : String)
  deriving DecidableEq, Repr

/-- The launch state of the default device with nothing placed (10_state.md R34, 70_reset_and_hazards.md
R180): pc at ENTRY; the registers, of which the spec says any value, 0x00 (DESIGN CHOICE, log 2); SREG
0x00 and RAMPD 0x00 (PRESUMED, the family's, log 3); no draw made (log 30). -/
def State.reset : State where
  cfg := Config.forCore .avre
  regs := Vector.replicate 32 0
  pc := 0
  flags := ⟨false, false, false, false, false, false, false, false⟩
  rampd := 0
  pm := []
  ram := []
  draws := 0

end Sys2Proof.Machine
end

