-- ==== Sys2Proof/Machine/Flags.lean ====
section
/-! DEFINITION. The flag computations, from the source's Boolean formulas (00_scope.md R8; 10_state.md R27).
Each takes the flags before and answers the flags after; a flag it does not name is unchanged. -/
namespace Sys2Proof.Machine

/-- ADD writes H, S, V, N, Z, C (40_arithmetic.md R100); a and b are Rd and Rr before, res the result. -/
def addFlags (a b res : Byte) (f : Flags) : Flags :=
  let v := (a[7] && b[7] && !res[7]) || (!a[7] && !b[7] && res[7])
  let n := res[7]
  { f with
    h := (a[3] && b[3]) || (b[3] && !res[3]) || (!res[3] && a[3])
    v := v
    n := n
    z := res == 0
    c := (a[7] && b[7]) || (b[7] && !res[7]) || (!res[7] && a[7])
    s := n ^^ v }

/-- ADIW writes S, V, N, Z, C (40_arithmetic.md R102); w is the pair before, res the result. -/
def adiwFlags (w res : Word) (f : Flags) : Flags :=
  let v := !w[15] && res[15]
  let n := res[15]
  { f with
    v := v
    n := n
    z := res == 0
    c := !res[15] && w[15]
    s := n ^^ v }

/-- AND and ANDI write S, V, N, Z, V being cleared (41_logic.md R110, R111). -/
def logicFlags (res : Byte) (f : Flags) : Flags :=
  let v := false
  let n := res[7]
  { f with
    v := v
    n := n
    z := res == 0
    s := n ^^ v }

/-- LSR writes S, V, N, Z, C, N being cleared (43_shift.md R140); a is Rd before, res the result. -/
def lsrFlags (a res : Byte) (f : Flags) : Flags :=
  let c := a[0]
  let n := false
  let v := n ^^ c
  { f with
    c := c
    n := n
    v := v
    s := n ^^ v
    z := res == 0 }

end Sys2Proof.Machine
end

