-- ==== Sys2Proof/Machine/Ops.lean ====
section
/-! DEFINITION. The named operations over memory and registers. There is no operation that takes an
exception and none that returns from one: the spec has neither (60_exceptions.md R160, R163, R164). -/
namespace Sys2Proof.Machine

/-! ### Memory -/

/-- What an address that is not listed reads as. DESIGN CHOICE (log 5): 10_state.md R34 leaves the launch
contents open. -/
def Memory.blank : Byte := 0

/-- The byte at an address. -/
def Memory.read : Memory → Nat → Byte
  | [], _ => Memory.blank
  | (b, v) :: m, a => if a = b then v else Memory.read m a

/-- Store a byte, keeping the canonical form. -/
def Memory.write : Memory → Nat → Byte → Memory
  | [], a, v => if v = Memory.blank then [] else [(a, v)]
  | (b, u) :: m, a, v =>
    if a < b then (if v = Memory.blank then (b, u) :: m else (a, v) :: (b, u) :: m)
    else if a = b then (if v = Memory.blank then m else (a, v) :: m)
    else (b, u) :: Memory.write m a v

/-- The canonical form: addresses strictly rising, no listed byte that an unlisted address reads as. -/
def Memory.wf : Memory → Bool
  | [] => true
  | (a, v) :: m => v != Memory.blank && m.all (fun c => decide (a < c.1)) && Memory.wf m

/-! ### Registers -/

/-- x[i] (00_scope.md R9). -/
def State.reg (s : State) (i : RegNum) : Byte := s.regs[i]

/-- x[i] <- v (00_scope.md R9). -/
def State.setReg (s : State) (i : RegNum) (v : Byte) : State := { s with regs := s.regs.set i v }

/-- SREG <- f. -/
def State.setFlags (s : State) (f : Flags) : State := { s with flags := f }

/-- pc <- pc + n, n the instruction's length in words (10_state.md R24). -/
def State.advance (s : State) (n : Nat) : State := { s with pc := s.pc + n }

/-- RAMPD as a number of RAMPD_BITS bits; 0 when RAMPD_BITS = 0 (10_state.md R29). -/
def State.rampdVal (s : State) : Nat := s.rampd.toNat % 2 ^ s.cfg.rampdBits

/-- SREG as the byte I:T:H:S:V:N:Z:C (10_state.md R28, log 7). -/
def Flags.toByte (f : Flags) : Byte :=
  BitVec.ofBool f.i ++ BitVec.ofBool f.t ++ BitVec.ofBool f.h ++ BitVec.ofBool f.s ++
    BitVec.ofBool f.v ++ BitVec.ofBool f.n ++ BitVec.ofBool f.z ++ BitVec.ofBool f.c

/-! ### Program memory -/

/-- PM[a], the word at word address a (10_state.md R30; 20_memory.md R41). -/
def State.pmWord (s : State) (a : Nat) : Word := s.pm.read (2 * a + 1) ++ s.pm.read (2 * a)

/-- Place a word at word address a: a launch operation, performed by no instruction (20_memory.md R55). -/
def State.placeWord (s : State) (a : Nat) (w : Word) : State :=
  { s with pm := (s.pm.write (2 * a) (w.extractLsb' 0 8)).write (2 * a + 1) (w.extractLsb' 8 8) }

/-- Place a program image, its first byte at byte address `base` (20_memory.md R41): a launch operation. -/
def State.loadImage (s : State) (base : Nat) : List Byte → State
  | [] => s
  | b :: bs => State.loadImage { s with pm := s.pm.write base b } (base + 1) bs

/-! ### Data space -/

/-- Place a byte of the launch memory (10_state.md R34): a launch operation; no instruction in scope stores
(20_memory.md R45). -/
def State.placeByte (s : State) (a : Nat) (v : Byte) : State := { s with ram := s.ram.write a v }

/-- MemRead(a, 1), also DS(a) (20_memory.md R44): the byte and the state after, in which only the count of
draws can differ. -/
def State.memRead (s : State) (a : Nat) : Except Refusal (Byte × State) :=
  match s.cfg.classify a with
  | .reg i => .ok (s.reg i, s)
  | .sreg => .ok (s.flags.toByte, s)
  | .rampd => .ok (BitVec.ofNat 8 s.rampdVal, s)
  | .ram => .ok (s.ram.read a, s)
  | .io => .ok (Config.ioDraw s.draws, { s with draws := s.draws + 1 })
  | .unmapped => .error .unmappedDataAddress

/-- x[d] <- MemRead(a, 1): what LDS and every LD form do with their address (42_load.md R121 to R126). -/
def State.load (s : State) (d : RegNum) (a : Nat) : Except Refusal State :=
  match s.memRead a with
  | .ok (v, t) => .ok (t.setReg d v)
  | .error r => .error r

end Sys2Proof.Machine
end

