-- ==== Sys2Proof/Machine/Operands.lean ====
section
/-! DEFINITION. The operand forms: register pairs, the Z pointer, and the data-space addresses LDS and the
LD forms compute. -/
namespace Sys2Proof.Machine

/-- xw[d] = x[d+1] : x[d] (10_state.md R21). -/
def State.pair (s : State) (d : RegNum) : Word := s.reg (d + 1) ++ s.reg d

/-- xw[d] <- v: both registers in one step (00_scope.md R9). -/
def State.setPair (s : State) (d : RegNum) (v : Word) : State :=
  (s.setReg d (v.extractLsb' 0 8)).setReg (d + 1) (v.extractLsb' 8 8)

/-- The low register of Z, the pair r31:r30 (10_state.md R23). -/
def zLow : RegNum := 30

/-- Z = r31:r30 (10_state.md R23). -/
def State.z (s : State) : Word := s.pair zLow

/-- The address of LDS: RAMPD : k (20_memory.md R46). -/
def State.ldsAddress (s : State) (k : Word) : Nat := s.rampdVal * 65536 + k.toNat

/-- The address of LDD Rd,Z+q: the 16-bit sum, wrapping (42_load.md R124). -/
def State.zPlus (s : State) (q : BitVec 6) : Word := s.z + q.setWidth 16

/-- d is a half of Z: the operands LD Rd,Z+ and LD Rd,-Z refuse (42_load.md R122, R123). -/
def isHalfOfZ (d : RegNum) : Bool := d == 30 || d == 31

/-- x[d] <- MemRead(ea, 1) for an address made from Z, then what the form does after, and pc <- pc + 1
(42_load.md R121 to R124). With RAMPZ_BITS > 0 the address would need an extension register the spec does
not model: refused (92_eei_decisions.md D24, log 12). -/
def State.loadThroughZ (s : State) (d : RegNum) (ea : Word) (after : State → State) :
    Host.Outcome State Fault Refusal :=
  if s.cfg.rampzBits = 0 then
    match s.load d ea.toNat with
    | .ok t => .next ((after t).advance 1)
    | .error r => .refused r
  else .refused .rampzNotModelled

end Sys2Proof.Machine
end

