-- ==== Sys2Proof/Machine/Arithmetic.lean ====
section
/-! DEFINITION. The arithmetic instructions ADD and ADIW (40_arithmetic.md). -/
namespace Sys2Proof.Machine

/-- ADD Rd,Rr (40_arithmetic.md R100). -/
def execAdd (d r : RegNum) (s : State) : Host.Outcome State Fault Refusal :=
  let a := s.reg d
  let b := s.reg r
  let res := a + b
  .next (((s.setReg d res).setFlags (addFlags a b res s.flags)).advance 1)

/-- ADIW Rd+1:Rd,K (40_arithmetic.md R102). -/
def execAdiw (d : RegNum) (K : BitVec 6) (s : State) : Host.Outcome State Fault Refusal :=
  let w := s.pair d
  let res := w + K.setWidth 16
  .next (((s.setPair d res).setFlags (adiwFlags w res s.flags)).advance 1)

end Sys2Proof.Machine
end

