-- ==== Sys2Proof/Machine/Load.lean ====
section
/-! DEFINITION. The load instructions LD through Z, LDD, LDI and LDS (42_load.md). -/
namespace Sys2Proof.Machine

/-- LDI Rd,K (42_load.md R125). -/
def execLdi (d : RegNum) (K : Byte) (s : State) : Host.Outcome State Fault Refusal :=
  .next ((s.setReg d K).advance 1)

/-- LDS Rd,k (42_load.md R126). -/
def execLds (d : RegNum) (k : Word) (s : State) : Host.Outcome State Fault Refusal :=
  match s.load d (s.ldsAddress k) with
  | .ok t => .next (t.advance 2)
  | .error r => .refused r

/-- LD Rd,Z (42_load.md R121). -/
def execLdZ (d : RegNum) (s : State) : Host.Outcome State Fault Refusal :=
  s.loadThroughZ d s.z id

/-- LD Rd,Z+ (42_load.md R122): the byte read is that before the increment. -/
def execLdZInc (d : RegNum) (s : State) : Host.Outcome State Fault Refusal :=
  if isHalfOfZ d then .refused .ldPostincIntoZ
  else s.loadThroughZ d s.z fun t => t.setPair zLow (s.z + 1)

/-- LD Rd,-Z (42_load.md R123): Z is written first, so a read of Z's own bytes through data space sees the
decremented value (log 17). -/
def execLdZDec (d : RegNum) (s : State) : Host.Outcome State Fault Refusal :=
  if isHalfOfZ d then .refused .ldPredecIntoZ
  else (s.setPair zLow (s.z - 1)).loadThroughZ d (s.z - 1) id

/-- LDD Rd,Z+q (42_load.md R124). -/
def execLddZ (d : RegNum) (q : BitVec 6) (s : State) : Host.Outcome State Fault Refusal :=
  s.loadThroughZ d (s.zPlus q) id

end Sys2Proof.Machine
end

