-- ==== Sys2Proof/Machine/Logic.lean ====
section
/-! DEFINITION. The logic instructions AND and ANDI (41_logic.md). -/
namespace Sys2Proof.Machine

/-- Rd <- res, with the flags of a logic instruction. -/
def State.putLogic (s : State) (d : RegNum) (res : Byte) : State :=
  ((s.setReg d res).setFlags (logicFlags res s.flags)).advance 1

/-- AND Rd,Rr (41_logic.md R110). -/
def execAnd (d r : RegNum) (s : State) : Host.Outcome State Fault Refusal :=
  .next (s.putLogic d (s.reg d &&& s.reg r))

/-- ANDI Rd,K (41_logic.md R111). -/
def execAndi (d : RegNum) (K : Byte) (s : State) : Host.Outcome State Fault Refusal :=
  .next (s.putLogic d (s.reg d &&& K))

end Sys2Proof.Machine
end

