-- ==== Sys2Proof/Machine/Move.lean ====
section
/-! DEFINITION. The move instructions MOV and MOVW (44_move.md). -/
namespace Sys2Proof.Machine

/-- MOV Rd,Rr (44_move.md R150). -/
def execMov (d r : RegNum) (s : State) : Host.Outcome State Fault Refusal :=
  .next ((s.setReg d (s.reg r)).advance 1)

/-- MOVW Rd+1:Rd,Rr+1:Rr (44_move.md R151). -/
def execMovw (d r : RegNum) (s : State) : Host.Outcome State Fault Refusal :=
  .next ((s.setPair d (s.pair r)).advance 1)

end Sys2Proof.Machine
end

