-- ==== Sys2Proof/Machine/Shift.lean ====
section
/-! DEFINITION. The shift instruction LSR (43_shift.md). -/
namespace Sys2Proof.Machine

/-- LSR Rd (43_shift.md R140): a zero shifted into bit 7. -/
def execLsr (d : RegNum) (s : State) : Host.Outcome State Fault Refusal :=
  let a := s.reg d
  let res := a >>> 1
  .next (((s.setReg d res).setFlags (lsrFlags a res s.flags)).advance 1)

end Sys2Proof.Machine
end

