-- ==== Sys2Proof/Syntax.lean ====
section
/-! DEFINITION. The instructions: one constructor per row of spec/opcode_table.json, operands as the
spec numbers them (register numbers, not field values). -/
namespace Sys2Proof

/-- The thirteen rows of 30_encoding.md R73, in its decode order. A pair is named by its low register. -/
inductive Instr where
  /-- MOVW Rd+1:Rd,Rr+1:Rr (44_move.md R151). -/
  | movw (d r : RegNum)
  /-- ADD Rd,Rr (40_arithmetic.md R100). -/
  | add (d r : RegNum)
  /-- AND Rd,Rr (41_logic.md R110). -/
  | and (d r : RegNum)
  /-- MOV Rd,Rr (44_move.md R150). -/
  | mov (d r : RegNum)
  /-- ANDI Rd,K (41_logic.md R111). -/
  | andi (d : RegNum) (K : Byte)
  /-- LDI Rd,K (42_load.md R125). -/
  | ldi (d : RegNum) (K : Byte)
  /-- ADIW Rd+1:Rd,K (40_arithmetic.md R102). -/
  | adiw (d : RegNum) (K : BitVec 6)
  /-- LDS Rd,k, two words (42_load.md R126). -/
  | lds (d : RegNum) (k : Word)
  /-- LD Rd,Z+, form ii (42_load.md R122). -/
  | ldZInc (d : RegNum)
  /-- LD Rd,-Z, form iii (42_load.md R123). -/
  | ldZDec (d : RegNum)
  /-- LSR Rd (43_shift.md R140). -/
  | lsr (d : RegNum)
  /-- LD Rd,Z, form i (42_load.md R121). -/
  | ldZ (d : RegNum)
  /-- LDD Rd,Z+q, form iv (42_load.md R124). -/
  | lddZ (d : RegNum) (q : BitVec 6)
  deriving DecidableEq, Repr

end Sys2Proof
end

