-- ==== Sys2Proof/WellFormed.lean ====
section
/-! DEFINITION. Which instruction terms an encoding exists for: the operand sets of the spec. -/
namespace Sys2Proof

/-- d names the low register of a pair: an even number (10_state.md R21). -/
def isPairLow (d : RegNum) : Bool := d.val % 2 == 0

/-- The operand sets of 30_encoding.md R72 and of each instruction's rule. Every value of a 5-bit
register field and of every immediate is legal (R76). LDD with q = 0 is the word of LD Rd,Z, and the
decoder reports form i for it (R70, 90_conflicts.md C8), so the term `lddZ d 0` is no decoded
instruction (log 24). -/
def Instr.wellFormed : Instr → Bool
  | .movw d r => isPairLow d && isPairLow r
  | .add _ _ => true
  | .and _ _ => true
  | .mov _ _ => true
  | .andi d _ => decide (16 ≤ d.val)
  | .ldi d _ => decide (16 ≤ d.val)
  | .adiw d _ => decide (24 ≤ d.val) && isPairLow d
  | .lds _ _ => true
  | .ldZInc _ => true
  | .ldZDec _ => true
  | .lsr _ => true
  | .ldZ _ => true
  | .lddZ _ q => q != 0

end Sys2Proof
end

