-- ==== Sys2Proof/Decode.lean ====
section
/-! DEFINITION. The opcode map of 30_encoding.md R73, the decoder over it (total on any bytes), and
the encoder written from the same formats (R63 to R72, R79). -/
namespace Sys2Proof

/-! ### Operand fields of a first word (R62 to R70: a field's letters, left to right, are its bits from
most to least significant) and the register each short field names (R72) -/

/-- The register a 5-bit field names. -/
def regOfBits (b : BitVec 5) : RegNum := ⟨b.toNat, b.isLt⟩

/-- The register with number n. -/
def regOfNat (n : Nat) : RegNum := Fin.ofNat 32 n

/-- Format RdRr: d = bit8 : bits7:4 (R63). -/
def fieldD (w : Word) : RegNum := regOfBits (w.extractLsb' 4 5)

/-- Format RdRr: r = bit9 : bits3:0 (R63). -/
def fieldR (w : Word) : RegNum := regOfBits (w.extractLsb' 9 1 ++ w.extractLsb' 0 4)

/-- Format RdK8: d = 16 + dddd (R64, R72). -/
def fieldDHigh (w : Word) : RegNum := regOfNat (16 + (w.extractLsb' 4 4).toNat)

/-- Format RdK8: K = bits11:8 : bits3:0 (R64, R71). -/
def fieldK8 (w : Word) : Byte := w.extractLsb' 8 4 ++ w.extractLsb' 0 4

/-- Format PairK6: d = 24 + 2·dd (R65, R72). -/
def fieldDUpperPair (w : Word) : RegNum := regOfNat (24 + 2 * (w.extractLsb' 4 2).toNat)

/-- Format PairK6: K = bits7:6 : bits3:0 (R65, R71). -/
def fieldK6 (w : Word) : BitVec 6 := w.extractLsb' 6 2 ++ w.extractLsb' 0 4

/-- Format PairPair: d = 2·dddd (R66, R72). -/
def fieldDPair (w : Word) : RegNum := regOfNat (2 * (w.extractLsb' 4 4).toNat)

/-- Format PairPair: r = 2·rrrr (R66, R72). -/
def fieldRPair (w : Word) : RegNum := regOfNat (2 * (w.extractLsb' 0 4).toNat)

/-- Format RdZq: q = bit13 : bits11:10 : bits2:0 (R70). -/
def fieldQ (w : Word) : BitVec 6 := w.extractLsb' 13 1 ++ w.extractLsb' 10 2 ++ w.extractLsb' 0 3

/-! ### The opcode map -/

/-- One row of the opcode map: a first word w is the row's when `w & mask = pattern`. -/
structure OpRow where
  mnemonic : String
  mask : Word
  pattern : Word
  /-- Length in 16-bit words (R60). -/
  words : Nat
  /-- The opcode is from general knowledge: admitted only under ADMIT_GK. -/
  gk : Bool
  /-- The instruction, from the first word and the word after it. -/
  build : Word → Word → Instr

/-- 30_encoding.md R73, rows 1 to 13 in decode order. -/
def opcodeTable : List OpRow :=
  [ ⟨"MOVW", 0xFF00, 0x0100, 1, false, fun w _ => .movw (fieldDPair w) (fieldRPair w)⟩,
    ⟨"ADD", 0xFC00, 0x0C00, 1, false, fun w _ => .add (fieldD w) (fieldR w)⟩,
    ⟨"AND", 0xFC00, 0x2000, 1, false, fun w _ => .and (fieldD w) (fieldR w)⟩,
    ⟨"MOV", 0xFC00, 0x2C00, 1, false, fun w _ => .mov (fieldD w) (fieldR w)⟩,
    ⟨"ANDI", 0xF000, 0x7000, 1, false, fun w _ => .andi (fieldDHigh w) (fieldK8 w)⟩,
    ⟨"LDI", 0xF000, 0xE000, 1, false, fun w _ => .ldi (fieldDHigh w) (fieldK8 w)⟩,
    ⟨"ADIW", 0xFF00, 0x9600, 1, false, fun w _ => .adiw (fieldDUpperPair w) (fieldK6 w)⟩,
    ⟨"LDS", 0xFE0F, 0x9000, 2, false, fun w k => .lds (fieldD w) k⟩,
    ⟨"LD_Z_INC", 0xFE0F, 0x9001, 1, true, fun w _ => .ldZInc (fieldD w)⟩,
    ⟨"LD_Z_DEC", 0xFE0F, 0x9002, 1, true, fun w _ => .ldZDec (fieldD w)⟩,
    ⟨"LSR", 0xFE0F, 0x9406, 1, true, fun w _ => .lsr (fieldD w)⟩,
    ⟨"LD_Z", 0xFE0F, 0x8000, 1, true, fun w _ => .ldZ (fieldD w)⟩,
    ⟨"LDD_Z", 0xD208, 0x8000, 1, true, fun w _ => .lddZ (fieldD w) (fieldQ w)⟩ ]

/-- The row's fixed bits are those of w. -/
def OpRow.fits (r : OpRow) (w : Word) : Bool := w &&& r.mask == r.pattern

/-- The first admitted row whose fixed bits are w's (R73); `gk` is ADMIT_GK. -/
def findRow (gk : Bool) (w : Word) : Option OpRow :=
  opcodeTable.find? fun r => (gk || !r.gk) && r.fits w

/-- The instruction whose first word is w, the word after it being k; none where no admitted row
matches (R74). A one-word instruction does not look at k. -/
def decodeWord (gk : Bool) (w k : Word) : Option Instr :=
  (findRow gk w).map fun r => r.build w k

/-- An instruction's length in words: 2 for LDS, 1 for every other (R60). -/
def Instr.words : Instr → Nat
  | .movw _ _ => 1
  | .add _ _ => 1
  | .and _ _ => 1
  | .mov _ _ => 1
  | .andi _ _ => 1
  | .ldi _ _ => 1
  | .adiw _ _ => 1
  | .lds _ _ => 2
  | .ldZInc _ => 1
  | .ldZDec _ => 1
  | .lsr _ => 1
  | .ldZ _ => 1
  | .lddZ _ _ => 1

/-- Why bytes are no instruction. -/
inductive DecodeError where
  /-- Fewer bytes than the instruction has. -/
  | truncated
  /-- The first word matches no admitted row (R74). -/
  | opcodeNotInSpec
  deriving DecidableEq, Repr

/-- The word of two bytes of a program image, low byte first (20_memory.md R41, D7; log 6). -/
def wordOfBytes (lo hi : Byte) : Word := hi ++ lo

/-- The decoder over a program image: one instruction and the bytes after it, or why there is none. -/
def decode (gk : Bool) : List Byte → Except DecodeError (Instr × List Byte)
  | lo :: hi :: rest =>
    match findRow gk (wordOfBytes lo hi) with
    | none => .error .opcodeNotInSpec
    | some r =>
      if r.words = 2 then
        match rest with
        | lo2 :: hi2 :: rest2 => .ok (r.build (wordOfBytes lo hi) (wordOfBytes lo2 hi2), rest2)
        | _ => .error .truncated
      else .ok (r.build (wordOfBytes lo hi) 0, rest)
  | _ => .error .truncated

/-! ### The encoder (R79; the boxes of R63 to R70) -/

/-- The 5-bit field of a register. -/
def regBits (d : RegNum) : BitVec 5 := BitVec.ofNat 5 d.val

/-- The box `oooo oord dddd rrrr` (R63). -/
def wordRdRr (op : BitVec 6) (d r : RegNum) : Word :=
  op ++ (regBits r).extractLsb' 4 1 ++ regBits d ++ (regBits r).extractLsb' 0 4

/-- The box `oooo KKKK dddd KKKK`, dddd = d − 16 (R64, R72). -/
def wordRdK8 (op : BitVec 4) (d : RegNum) (K : Byte) : Word :=
  op ++ K.extractLsb' 4 4 ++ BitVec.ofNat 4 (d.val - 16) ++ K.extractLsb' 0 4

/-- The box `oooo oood dddd llll` (R67 to R69). -/
def wordRd (op : BitVec 7) (d : RegNum) (low : BitVec 4) : Word := op ++ regBits d ++ low

/-- The words of an instruction, the word at the lower address first (R41, R79). -/
def encodeWords : Instr → List Word
  | .movw d r => [0x01#8 ++ BitVec.ofNat 4 (d.val / 2) ++ BitVec.ofNat 4 (r.val / 2)]
  | .add d r => [wordRdRr 0b000011#6 d r]
  | .and d r => [wordRdRr 0b001000#6 d r]
  | .mov d r => [wordRdRr 0b001011#6 d r]
  | .andi d K => [wordRdK8 0b0111#4 d K]
  | .ldi d K => [wordRdK8 0b1110#4 d K]
  | .adiw d K => [0x96#8 ++ K.extractLsb' 4 2 ++ BitVec.ofNat 2 ((d.val - 24) / 2) ++ K.extractLsb' 0 4]
  | .lds d k => [wordRd 0b1001000#7 d 0b0000#4, k]
  | .ldZInc d => [wordRd 0b1001000#7 d 0b0001#4]
  | .ldZDec d => [wordRd 0b1001000#7 d 0b0010#4]
  | .lsr d => [wordRd 0b1001010#7 d 0b0110#4]
  | .ldZ d => [wordRd 0b1000000#7 d 0b0000#4]
  | .lddZ d q =>
    [0b10#2 ++ q.extractLsb' 5 1 ++ 0b0#1 ++ q.extractLsb' 3 2 ++ 0b0#1 ++ regBits d ++ 0b0#1
      ++ q.extractLsb' 0 3]

/-- The bytes of a word in a program image, low byte first (R41). -/
def bytesOfWord (w : Word) : List Byte := [w.extractLsb' 0 8, w.extractLsb' 8 8]

/-- The bytes of an instruction in a program image. -/
def encode (i : Instr) : List Byte := (encodeWords i).flatMap bytesOfWord

/-- The decoder's answer for an instruction whose bits are w, bit 0 the least significant of the first
word, a later word's bits counting on from it; bits above nbits are 0. All rows are admitted. -/
def decodeTableWord (nbits w : Nat) : Option Instr :=
  let bits : BitVec 32 := BitVec.ofNat 32 (w % 2 ^ nbits)
  match decode true (bytesOfWord (bits.extractLsb' 0 16) ++ bytesOfWord (bits.extractLsb' 16 16)) with
  | .ok (i, _) => some i
  | .error _ => none

end Sys2Proof
end

