-- ==== Sys2Proof/Machine/Fetch.lean ====
section
/-! DEFINITION. Fetching the next instruction, with the checks 70_reset_and_hazards.md R182 makes before the
row's rule is performed, in the order of 60_exceptions.md R162. -/
namespace Sys2Proof.Machine

/-- The instruction's availability parameter (00_scope.md R5; 30_encoding.md R75). -/
def isAvailable (c : Config) : Instr → Bool
  | .movw _ _ => c.hasMovw
  | .add _ _ => true
  | .and _ _ => true
  | .mov _ _ => true
  | .andi _ _ => true
  | .ldi _ _ => true
  | .adiw _ _ => c.hasAdiw
  | .lds _ _ => c.hasLds32
  | .ldZInc _ => true
  | .ldZDec _ => true
  | .lsr _ => true
  | .ldZ _ => true
  | .lddZ _ _ => c.hasLdd

/-- The instruction at pc, or why the step has no meaning (70_reset_and_hazards.md R182). -/
def State.fetch (s : State) : Except Refusal Instr :=
  if s.cfg.core = .avrrc then .error .coreNotModelled
  else if s.cfg.flashWords ≤ s.pc then .error .pcOutOfRange
  else
    match decodeWord s.cfg.admitGk (s.pmWord s.pc) (s.pmWord (s.pc + 1)) with
    | none => .error .opcodeNotInSpec
    | some i =>
      if isAvailable s.cfg i = false then .error .instructionNotOnThisDevice
      else if i.words = 2 ∧ s.cfg.flashWords ≤ s.pc + 1 then .error .pcOutOfRange
      else .ok i

/-- The instruction whose bits are w (numbered as spec/opcode_table.json numbers them; bits from nbits up
are 0), placed where fetch reads it: two words, the longest instruction. -/
def State.placeInstr (s : State) (nbits w : Nat) : State :=
  let bits : BitVec 32 := BitVec.ofNat 32 (w % 2 ^ nbits)
  (s.placeWord s.pc (bits.extractLsb' 0 16)).placeWord (s.pc + 1) (bits.extractLsb' 16 16)

end Sys2Proof.Machine
end

