-- ==== Sys2Proof/Machine/Step.lean ====
section
/-! DEFINITION. One step of the one agent (70_reset_and_hazards.md R182). -/
namespace Sys2Proof.Machine

/-- Fetch and check, then perform the instruction's rule, which writes pc. -/
def step (s : State) : Host.Outcome State Fault Refusal :=
  match s.fetch with
  | .ok i => exec i s
  | .error r => .refused r

/-- The state with an instruction stored where step fetches its next one. -/
def State.withFetchWord (s : State) (nbits w : Nat) : State := s.placeInstr nbits w

end Sys2Proof.Machine
end

