-- ==== Sys2Proof/Machine/Assembly.lean ====
section
/-! DEFINITION. The assembler syntax of 30_encoding.md R77: an instruction written out, and a line read. Text
is a list of characters. No effect on the machine (92_eei_decisions.md D25, log 28). -/
namespace Sys2Proof.Asm

/-! ### Writing -/

/-- A number in decimal. -/
def decimal (n : Nat) : List Char := Nat.toDigits 10 n

/-- One hexadecimal digit. -/
def hexDigit (b : BitVec 4) : Char :=
  if b.toNat < 10 then Char.ofNat (48 + b.toNat) else Char.ofNat (55 + b.toNat)

/-- A data address: `0x` and four hexadecimal digits, as in "lds r2,0xFF00". -/
def address (k : Word) : List Char :=
  ['0', 'x', hexDigit (k.extractLsb' 12 4), hexDigit (k.extractLsb' 8 4), hexDigit (k.extractLsb' 4 4),
    hexDigit (k.extractLsb' 0 4)]

/-- A register, `r0` to `r31`. -/
def register (d : RegNum) : List Char := 'r' :: decimal d.val

/-- A register pair, high register first. -/
def registerPair (d : RegNum) : List Char := register (d + 1) ++ [':'] ++ register d

/-- Mnemonic, a space, two operands with a comma between. -/
def twoOperands (mnemonic : String) (a b : List Char) : List Char :=
  mnemonic.toList ++ [' '] ++ a ++ [','] ++ b

/-- The instruction as the source's examples write it (R77). A disassembler prints these names and no alias
such as lsl, tst or cbr (R78). -/
def print : Instr → List Char
  | .movw d r => twoOperands "movw" (registerPair d) (registerPair r)
  | .add d r => twoOperands "add" (register d) (register r)
  | .and d r => twoOperands "and" (register d) (register r)
  | .mov d r => twoOperands "mov" (register d) (register r)
  | .andi d K => twoOperands "andi" (register d) (decimal K.toNat)
  | .ldi d K => twoOperands "ldi" (register d) (decimal K.toNat)
  | .adiw d K => twoOperands "adiw" (registerPair d) (decimal K.toNat)
  | .lds d k => twoOperands "lds" (register d) (address k)
  | .ldZInc d => twoOperands "ld" (register d) ['Z', '+']
  | .ldZDec d => twoOperands "ld" (register d) ['-', 'Z']
  | .lsr d => "lsr".toList ++ [' '] ++ register d
  | .ldZ d => twoOperands "ld" (register d) ['Z']
  | .lddZ d q => twoOperands "ldd" (register d) (['Z', '+'] ++ decimal q.toNat)

/-! ### Reading (letters already in lower case, D25) -/

/-- The value of a digit of a number in the given base. -/
def digitValue (base : Nat) (c : Char) : Option Nat :=
  let n := c.toNat
  let v := if 48 ≤ n ∧ n ≤ 57 then n - 48 else if 97 ≤ n ∧ n ≤ 102 then n - 87 else base
  if v < base then some v else none

/-- The digits of a number, read after the value so far. -/
def digits (base : Nat) : Nat → List Char → Option Nat
  | acc, [] => some acc
  | acc, c :: cs =>
    match digitValue base c with
    | some v => digits base (acc * base + v) cs
    | none => none

/-- A number, decimal or `0x` hexadecimal, below a bound. -/
def number (bound : Nat) (cs : List Char) : Option Nat :=
  let value :=
    match cs with
    | [] => none
    | '0' :: 'x' :: c :: rest => digits 16 0 (c :: rest)
    | c :: rest => digits 10 0 (c :: rest)
  match value with
  | some n => if n < bound then some n else none
  | none => none

/-- The register a name stands for. -/
def readRegister (cs : List Char) : Option RegNum :=
  (List.finRange 32).find? fun d => register d == cs

/-- The pair a name stands for, by its low register; ZH:ZL is r31:r30. -/
def readPair (cs : List Char) : Option RegNum :=
  if cs = ['z', 'h', ':', 'z', 'l'] then some 30
  else (List.finRange 32).find? fun d => d.val % 2 == 0 && registerPair d == cs

/-- The operand of a load through Z; `Z+0` is the encoding of `Z` (R70). -/
def readZ (displaced : Bool) (d : RegNum) (cs : List Char) : Option Instr :=
  if displaced then
    match cs with
    | 'z' :: '+' :: rest =>
      (number 64 rest).map fun q => if q = 0 then .ldZ d else .lddZ d (BitVec.ofNat 6 q)
    | _ => none
  else if cs = ['z'] then some (.ldZ d)
  else if cs = ['z', '+'] then some (.ldZInc d)
  else if cs = ['-', 'z'] then some (.ldZDec d)
  else none

/-- An instruction of two operands. -/
def readTwo (mnemonic a b : List Char) : Option Instr :=
  if mnemonic = "movw".toList then (readPair a).bind fun d => (readPair b).map fun r => .movw d r
  else if mnemonic = "adiw".toList then
    (readPair a).bind fun d => (number 64 b).map fun K => .adiw d (BitVec.ofNat 6 K)
  else
    (readRegister a).bind fun d =>
      if mnemonic = "add".toList then (readRegister b).map fun r => .add d r
      else if mnemonic = "and".toList then (readRegister b).map fun r => .and d r
      else if mnemonic = "mov".toList then (readRegister b).map fun r => .mov d r
      else if mnemonic = "andi".toList then (number 256 b).map fun K => .andi d (BitVec.ofNat 8 K)
      else if mnemonic = "ldi".toList then (number 256 b).map fun K => .ldi d (BitVec.ofNat 8 K)
      else if mnemonic = "lds".toList then (number 65536 b).map fun k => .lds d (BitVec.ofNat 16 k)
      else if mnemonic = "ld".toList then readZ false d b
      else if mnemonic = "ldd".toList then readZ true d b
      else none

/-- The text up to the first character c, and the text after it. -/
def cut (c : Char) : List Char → List Char × List Char
  | [] => ([], [])
  | x :: xs => if x = c then ([], xs) else (x :: (cut c xs).1, (cut c xs).2)

/-- The text without its leading spaces. -/
def skipSpaces (cs : List Char) : List Char := cs.dropWhile (· == ' ')

/-- One statement: mnemonic, a space, the operands. -/
def readStatement (cs : List Char) : Option Instr :=
  let parts := cut ' ' (skipSpaces cs)
  let operands := cut ',' (parts.2.filter (· != ' '))
  let found :=
    if operands.2 = [] then
      if parts.1 = "lsr".toList then (readRegister operands.1).map .lsr else none
    else readTwo parts.1 operands.1 operands.2
  match found with
  | some i => if i.wellFormed then some i else none
  | none => none

/-- One line: an optional label `name:`, one instruction, an optional comment from `;` on; upper and lower
case are one (R77, D25). -/
def read (line : List Char) : Option Instr :=
  let code := skipSpaces ((cut ';' line).1.map Char.toLower)
  let parts := cut ' ' code
  if parts.1.getLast? = some ':' then readStatement parts.2 else readStatement code

end Sys2Proof.Asm
end

