-- ==== Sys2Proof/Machine/Cycles.lean ====
section
/-! DEFINITION. The cycles tables as data (70_reset_and_hazards.md R186 to R190). Timing only: no rule and no
step of the model depends on them (92_eei_decisions.md D21, log 26). -/
namespace Sys2Proof.Machine

/-- One entry of a cycles table. -/
inductive Cycles where
  /-- A count, with the numbers of the table's notes attached to it. -/
  | count (n : Nat) (notes : List Nat)
  /-- A pair such as "1 / 2", whose meaning the source does not explain (91_not_in_source.md N8). -/
  | either (low high : Nat)
  /-- N/A: the core does not have the instruction or form. -/
  | notAvailable
  /-- The table is lost: no count may be assumed (R190). -/
  | lost
  deriving DecidableEq, Repr

/-- Table 5-1, of the lost section 5.1 (R188): an instruction the source does not name. -/
def cyclesSection1 (_ : CoreVariant) : Cycles := .count 1 []

/-- The entry of the source's tables for an instruction on a core variant (R188, R189, R190). Note 1: internal
RAM access assumed, not valid for external RAM. Note 2: internal RAM access assumed, at least one more cycle
for NVM. Note 3: one cycle can be deducted when an I/O register is accessed. -/
def cyclesOf (core : CoreVariant) : Instr → Cycles
  | .movw _ _ => .lost
  | .add _ _ => .count 1 []
  | .and _ _ => .count 1 []
  | .mov _ _ => .count 1 []
  | .andi _ _ => .lost
  | .ldi _ _ => .count 1 []
  | .adiw _ _ =>
    match core with
    | .avre => .count 2 []
    | .avrxm => .count 2 []
    | .avrxt => .count 2 []
    | .avrrc => .notAvailable
  | .lds _ _ => .lost
  | .lsr _ => .count 1 []
  | .ldZ _ =>
    match core with
    | .avre => .count 2 [1]
    | .avrxm => .count 2 [1, 3]
    | .avrxt => .count 2 [2]
    | .avrrc => .either 1 2
  | .ldZInc _ =>
    match core with
    | .avre => .count 2 [1]
    | .avrxm => .count 2 [1, 3]
    | .avrxt => .count 2 [2]
    | .avrrc => .either 2 3
  | .ldZDec _ =>
    match core with
    | .avre => .count 2 [1]
    | .avrxm => .count 3 [1, 3]
    | .avrxt => .count 2 [2]
    | .avrrc => .either 2 3
  | .lddZ _ _ =>
    match core with
    | .avre => .count 2 [1]
    | .avrxm => .count 3 [1, 3]
    | .avrxt => .count 2 [2]
    | .avrrc => .notAvailable

end Sys2Proof.Machine
end

