-- ==== Sys2Proof/Safety.lean ====
section
/-! DEFINITION. The terms statements use: launch states, the invariant of the machine, what a read of data
space gives, what is left unchanged, and a finished run. -/
namespace Sys2Proof.Safety

open Sys2Proof.Machine

/-- What every state of a run satisfies: the parameters make sense, pc is a number from 0 to FLASH_WORDS
(10_state.md R25), RAMPD has no bit past RAMPD_BITS (R29), both memories are in canonical form, and only
Ram-class addresses are listed in data memory (20_memory.md R44). -/
def MachineInv (s : State) : Prop :=
  s.cfg.wf = true ∧ s.pc ≤ s.cfg.flashWords ∧ s.rampd.toNat < 2 ^ s.cfg.rampdBits ∧
    s.pm.wf = true ∧ s.ram.wf = true ∧ ∀ c ∈ s.ram, s.cfg.classify c.1 = .ram

/-- A launch state (10_state.md R34, 70_reset_and_hazards.md R180): pc = ENTRY; registers, flags, program,
launch memory any. -/
def Launch (s : State) : Prop := MachineInv s ∧ s.pc = s.cfg.entry

/-- The byte v is what MemRead(a, 1) gives in s (20_memory.md R44, R48 to R50); nothing for an Unmapped
address. -/
def DataReads (s : State) (a : Nat) (v : Byte) : Prop :=
  match s.cfg.classify a with
  | .reg i => v = s.reg i
  | .sreg =>
    v[7] = s.flags.i ∧ v[6] = s.flags.t ∧ v[5] = s.flags.h ∧ v[4] = s.flags.s ∧
      v[3] = s.flags.v ∧ v[2] = s.flags.n ∧ v[1] = s.flags.z ∧ v[0] = s.flags.c
  | .rampd => v.toNat = s.rampdVal
  | .ram => v = s.ram.read a
  | .io => v = Config.ioDraw s.draws
  | .unmapped => False

/-- How many Io draws a read of address a makes: a fresh one for each read of class Io (R49). -/
def drawsOf (s : State) (a : Nat) : Nat := if s.cfg.classify a = .io then 1 else 0

/-- Every general register not in ds is unchanged. -/
def RegsSameExcept (ds : List RegNum) (s t : State) : Prop := ∀ j, j ∉ ds → t.reg j = s.reg j

/-- Program memory, the Ram bytes of data space, RAMPD and the device are unchanged. -/
def StoresNothing (s t : State) : Prop :=
  (∀ a, t.pmWord a = s.pmWord a) ∧ (∀ a, t.pm.read a = s.pm.read a) ∧ (∀ a, t.ram.read a = s.ram.read a) ∧
    t.rampd = s.rampd ∧ t.cfg = s.cfg

/-- `StoresNothing`, and no draw is made. -/
def TouchesNoMemory (s t : State) : Prop := StoresNothing s t ∧ t.draws = s.draws

/-- The run to END (70_reset_and_hazards.md R184): the state in which pc first equals END, if it comes
within n steps with no refusal. -/
def runToEnd : Nat → State → Option State
  | 0, s => if s.pc = s.cfg.endAddr then some s else none
  | n + 1, s =>
    if s.pc = s.cfg.endAddr then some s
    else
      match step s with
      | .next t => runToEnd n t
      | .fault _ => none
      | .refused _ => none

/-- The instruction reads data space (20_memory.md R43): LDS and the LD forms. -/
def readsDataSpace : Instr → Bool
  | .movw _ _ => false
  | .add _ _ => false
  | .and _ _ => false
  | .mov _ _ => false
  | .andi _ _ => false
  | .ldi _ _ => false
  | .adiw _ _ => false
  | .lds _ _ => true
  | .ldZInc _ => true
  | .ldZDec _ => true
  | .lsr _ => false
  | .ldZ _ => true
  | .lddZ _ _ => true

/-- The data address an instruction reads in a state; none for an instruction that reads none
(20_memory.md R46; 42_load.md R121 to R126). -/
def dataAddress (i : Instr) (s : State) : Option Nat :=
  match i with
  | .movw _ _ => none
  | .add _ _ => none
  | .and _ _ => none
  | .mov _ _ => none
  | .andi _ _ => none
  | .ldi _ _ => none
  | .adiw _ _ => none
  | .lds _ k => some (s.ldsAddress k)
  | .ldZInc _ => some s.z.toNat
  | .ldZDec _ => some (s.z - 1).toNat
  | .lsr _ => none
  | .ldZ _ => some s.z.toNat
  | .lddZ _ q => some (s.zPlus q).toNat

/-- The instruction is a row whose opcode is from general knowledge (30_encoding.md R73). -/
def isGk : Instr → Bool
  | .movw _ _ => false
  | .add _ _ => false
  | .and _ _ => false
  | .mov _ _ => false
  | .andi _ _ => false
  | .ldi _ _ => false
  | .adiw _ _ => false
  | .lds _ _ => false
  | .ldZInc _ => true
  | .ldZDec _ => true
  | .lsr _ => true
  | .ldZ _ => true
  | .lddZ _ _ => true

/-- The state s with the given data memory, RAMPD and count of draws in place of its own. -/
def withDataSpace (s : State) (ram : Memory) (rampd : Byte) (draws : Nat) : State :=
  { s with ram := ram, rampd := rampd, draws := draws }

/-- The state s on another core variant, its other parameters as they are (00_scope.md R2). -/
def withCore (s : State) (core : CoreVariant) : State := { s with cfg := { s.cfg with core := core } }

end Sys2Proof.Safety
end

