-- ==== Sys2Proof/Certificates/Slice0/Obligations.lean ====
section
/-! DEFINITION. The statements for the provers. "Word w decodes" is said of the encoding 30_encoding.md R79
computes from the operands, written out in each statement. -/

open Sys2Proof Sys2Proof.Machine Sys2Proof.Safety

/-! ### Fetching and decoding -/

/-- 70_reset_and_hazards.md §2: a step in which no check fails performs the decoded instruction's rule on the
state itself; nothing is added around exec. -/
def Obligations.StepRunsDecodedInstruction : Prop :=
  ∀ (s : State) (i : Instr),
    s.cfg.core ≠ .avrrc → s.pc < s.cfg.flashWords →
    decodeWord s.cfg.admitGk (s.pmWord s.pc) (s.pmWord (s.pc + 1)) = some i →
    isAvailable s.cfg i = true → (i.words = 2 → s.pc + 1 < s.cfg.flashWords) →
    step s = exec i s

/-- 60_exceptions.md R162: the checks of one step, in order; the first that fails names the refusal. The LD
clauses of (5) are for RAMPZ_BITS = 0 (`LdWithExtensionRegisterIsRefused` says what happens otherwise). -/
def Obligations.StepRefusesByFirstFailedCheck : Prop :=
  ∀ s : State,
    (s.cfg.core = .avrrc → step s = .refused .coreNotModelled) ∧
    (s.cfg.core ≠ .avrrc → s.cfg.flashWords ≤ s.pc → step s = .refused .pcOutOfRange) ∧
    (s.cfg.core ≠ .avrrc → s.pc < s.cfg.flashWords →
      (decodeWord s.cfg.admitGk (s.pmWord s.pc) (s.pmWord (s.pc + 1)) = none →
        step s = .refused .opcodeNotInSpec) ∧
      ∀ i, decodeWord s.cfg.admitGk (s.pmWord s.pc) (s.pmWord (s.pc + 1)) = some i →
        (isAvailable s.cfg i = false → step s = .refused .instructionNotOnThisDevice) ∧
        (isAvailable s.cfg i = true → s.cfg.flashWords ≤ s.pc + 1 → i.words = 2 →
          step s = .refused .pcOutOfRange) ∧
        (isAvailable s.cfg i = true → (i = .ldZInc 30 ∨ i = .ldZInc 31) →
          step s = .refused .ldPostincIntoZ) ∧
        (isAvailable s.cfg i = true → (i = .ldZDec 30 ∨ i = .ldZDec 31) →
          step s = .refused .ldPredecIntoZ) ∧
        (isAvailable s.cfg i = true → (i.words = 2 → s.pc + 1 < s.cfg.flashWords) →
          i ≠ .ldZInc 30 → i ≠ .ldZInc 31 → i ≠ .ldZDec 30 → i ≠ .ldZDec 31 →
          (i.words = 1 → s.cfg.rampzBits = 0) →
          ∀ a, dataAddress i s = some a → s.cfg.classify a = .unmapped →
            step s = .refused .unmappedDataAddress))

/-- 30_encoding.md R73 and 95_test_vectors.md §2: a few words, one of each format and some no row matches. -/
def Obligations.SampleWordsDecode : Prop :=
  ∀ k : Word,
    decodeWord true 0x0F01 k = some (.add 16 17) ∧ decodeWord true 0x96B0 k = some (.adiw 30 0x20) ∧
    decodeWord true 0x7A15 k = some (.andi 17 0xA5) ∧ decodeWord true 0x01FC k = some (.movw 30 24) ∧
    decodeWord true 0x9020 k = some (.lds 2 k) ∧ decodeWord true 0x95F6 k = some (.lsr 31) ∧
    decodeWord true 0x9032 k = some (.ldZDec 3) ∧ decodeWord true 0x8000 k = some (.ldZ 0) ∧
    decodeWord true 0xADF7 k = some (.lddZ 31 63) ∧ decodeWord false 0x9001 k = none ∧
    decodeWord true 0x0000 k = none ∧ decodeWord true 0x8208 k = none

/-- Decode and encode agree: every well-formed instruction, with every operand, is what the decoder reads from
its bytes, whatever bytes follow. -/
def Obligations.DecodeOfEncodeIsTheInstruction : Prop :=
  ∀ (i : Instr) (rest : List Byte), i.wellFormed = true → decode true (encode i ++ rest) = .ok (i, rest)

/-- No bit of a word is dropped: what the decoder reads is well-formed and encodes to the words it was read
from. -/
def Obligations.EncodeOfDecodedIsTheWords : Prop :=
  ∀ (gk : Bool) (w k : Word) (i : Instr), decodeWord gk w k = some i →
    i.wellFormed = true ∧ encodeWords i = if i.words = 2 then [w, k] else [w]

/-- 30_encoding.md §5 (R73's disjointness, which the spec marks as derived): two rows that match one word are the
same row, but for LD_Z and LDD_Z. -/
def Obligations.OpcodeRowsAreDisjointButLdAndLdd : Prop :=
  ∀ (w : Word) (m n : Nat) (p q : OpRow), opcodeTable[m]? = some p → opcodeTable[n]? = some q → m < n →
    p.fits w = true → q.fits w = true → p.mnemonic = "LD_Z" ∧ q.mnemonic = "LDD_Z"

/-- 30_encoding.md §1 (R61, which the spec marks as derived): the first word alone gives the length; the second
word is the operand k of LDS whatever its value, and no other instruction looks at it. -/
def Obligations.LengthIsToldByTheFirstWord : Prop :=
  ∀ (gk : Bool) (w k : Word) (i : Instr), decodeWord gk w k = some i →
    (i.words = 1 ∨ i.words = 2) ∧ (i.words = 2 ↔ w &&& 0xFE0F = 0x9000) ∧
    (i.words = 2 → ∃ d, ∀ k', decodeWord gk w k' = some (.lds d k')) ∧
    (i.words = 1 → ∀ k', decodeWord gk w k' = some i)

/-- 30_encoding.md §8 (R79, which the spec marks as derived): the words as arithmetic on the operands. -/
def Obligations.EncoderIsTheOperandArithmetic : Prop :=
  (∀ d r : RegNum,
    encodeWords (.add d r) =
      [BitVec.ofNat 16 (0x0C00 ||| (r.val &&& 0x10) <<< 5 ||| d.val <<< 4 ||| (r.val &&& 0x0F))] ∧
    encodeWords (.and d r) =
      [BitVec.ofNat 16 (0x2000 ||| (r.val &&& 0x10) <<< 5 ||| d.val <<< 4 ||| (r.val &&& 0x0F))] ∧
    encodeWords (.mov d r) =
      [BitVec.ofNat 16 (0x2C00 ||| (r.val &&& 0x10) <<< 5 ||| d.val <<< 4 ||| (r.val &&& 0x0F))]) ∧
  (∀ (d : RegNum) (K : Byte), 16 ≤ d.val →
    encodeWords (.andi d K) =
      [BitVec.ofNat 16 (0x7000 ||| (K.toNat &&& 0xF0) <<< 4 ||| (d.val - 16) <<< 4 ||| (K.toNat &&& 0x0F))] ∧
    encodeWords (.ldi d K) =
      [BitVec.ofNat 16 (0xE000 ||| (K.toNat &&& 0xF0) <<< 4 ||| (d.val - 16) <<< 4 ||| (K.toNat &&& 0x0F))]) ∧
  (∀ (d : RegNum) (K : BitVec 6), 24 ≤ d.val → d.val % 2 = 0 →
    encodeWords (.adiw d K) =
      [BitVec.ofNat 16 (0x9600 ||| (K.toNat &&& 0x30) <<< 2 ||| ((d.val - 24) / 2) <<< 4 ||| (K.toNat &&& 0x0F))]) ∧
  (∀ d r : RegNum, d.val % 2 = 0 → r.val % 2 = 0 →
    encodeWords (.movw d r) = [BitVec.ofNat 16 (0x0100 ||| (d.val / 2) <<< 4 ||| (r.val / 2))]) ∧
  (∀ (d : RegNum) (k : Word), encodeWords (.lds d k) = [BitVec.ofNat 16 (0x9000 ||| d.val <<< 4), k]) ∧
  (∀ d : RegNum,
    encodeWords (.lsr d) = [BitVec.ofNat 16 (0x9406 ||| d.val <<< 4)] ∧
    encodeWords (.ldZ d) = [BitVec.ofNat 16 (0x8000 ||| d.val <<< 4)] ∧
    encodeWords (.ldZInc d) = [BitVec.ofNat 16 (0x9001 ||| d.val <<< 4)] ∧
    encodeWords (.ldZDec d) = [BitVec.ofNat 16 (0x9002 ||| d.val <<< 4)]) ∧
  (∀ (d : RegNum) (q : BitVec 6),
    encodeWords (.lddZ d q) =
      [BitVec.ofNat 16 (0x8000 ||| (q.toNat &&& 0x20) <<< 8 ||| (q.toNat &&& 0x18) <<< 7 ||| d.val <<< 4
        ||| (q.toNat &&& 0x07))])

/-- 00_scope.md §4 and 92_eei_decisions.md D2: ADMIT_GK = false drops exactly the words of LSR and the LD forms,
and changes no other word's meaning. -/
def Obligations.AdmitGkDropsOnlyGkRows : Prop :=
  ∀ (w k : Word) (i : Instr),
    decodeWord false w k = some i ↔ decodeWord true w k = some i ∧ isGk i = false

/-- An instruction placed where step fetches is the instruction step runs: the words of the opcode table's
numbering, through program memory, decode and the availability checks. -/
def Obligations.PlacedInstructionRunsNext : Prop :=
  ∀ (s : State) (nbits w : Nat) (i : Instr),
    s.pm.wf = true → s.cfg.core ≠ .avrrc → s.cfg.admitGk = true → s.pc + 1 < s.cfg.flashWords →
    isAvailable s.cfg i = true → decodeTableWord nbits w = some i →
    step (s.withFetchWord nbits w) = exec i (s.withFetchWord nbits w)

/-- 20_memory.md §1 (R41): a program image places word a as byte[2a+1] : byte[2a], and leaves every byte outside
it. -/
def Obligations.ImageWordsAreLowByteFirst : Prop :=
  ∀ (s : State) (image : List Byte), s.pm.wf = true →
    (∀ a (h : 2 * a + 1 < image.length),
      (s.loadImage 0 image).pmWord a = image[2 * a + 1] ++ image[2 * a]) ∧
    (∀ a, image.length ≤ a → (s.loadImage 0 image).pm.read a = s.pm.read a) ∧
    (s.loadImage 0 image).pm.wf = true

/-! ### Arithmetic -/

/-- 40_arithmetic.md R100: ADD, its encoding, its result, its flag formulas, and everything it leaves. -/
def Obligations.AddFollowsItsRule : Prop :=
  ∀ (d r : RegNum) (s : State),
    (∀ gk k, decodeWord gk
      (BitVec.ofNat 16 (0x0C00 ||| (r.val &&& 0x10) <<< 5 ||| d.val <<< 4 ||| (r.val &&& 0x0F))) k =
        some (.add d r)) ∧
    (∀ c, isAvailable c (.add d r) = true) ∧
    ∃ t, exec (.add d r) s = .next t ∧
      (let a := s.reg d
       let b := s.reg r
       let res := t.reg d
       res.toNat = (a.toNat + b.toNat) % 256 ∧
       t.flags.h = ((a[3] && b[3]) || (b[3] && !res[3]) || (!res[3] && a[3])) ∧
       t.flags.v = ((a[7] && b[7] && !res[7]) || (!a[7] && !b[7] && res[7])) ∧
       t.flags.n = res[7] ∧
       t.flags.z = decide (res = 0) ∧
       t.flags.c = ((a[7] && b[7]) || (b[7] && !res[7]) || (!res[7] && a[7]))) ∧
      t.flags.s = (t.flags.n ^^ t.flags.v) ∧
      t.flags.i = s.flags.i ∧ t.flags.t = s.flags.t ∧
      t.pc = s.pc + 1 ∧ RegsSameExcept [d] s t ∧ TouchesNoMemory s t

/-- 40_arithmetic.md, "Arithmetic meaning of the ADD flags" (R101, which the spec marks "derived: from rule R100"):
C is the unsigned carry, H the carry out of bit 3, V the signed overflow, S the sign of the exact sum. -/
def Obligations.AddFlagsMeanCarryAndOverflow : Prop :=
  ∀ (d r : RegNum) (s t : State), exec (.add d r) s = .next t →
    (t.flags.c = true ↔ 256 ≤ (s.reg d).toNat + (s.reg r).toNat) ∧
    (t.flags.h = true ↔ 16 ≤ (s.reg d).toNat % 16 + (s.reg r).toNat % 16) ∧
    (t.flags.v = true ↔
      (s.reg d).toInt + (s.reg r).toInt < -128 ∨ 127 < (s.reg d).toInt + (s.reg r).toInt) ∧
    (t.flags.s = true ↔ (s.reg d).toInt + (s.reg r).toInt < 0) ∧
    (t.flags.n = true ↔ 128 ≤ (t.reg d).toNat) ∧
    (t.flags.z = true ↔ t.reg d = 0)

/-- 40_arithmetic.md R102: ADIW on the upper four pairs, its encoding and availability, its result over both
registers, its flag formulas, and everything it leaves (H among it). -/
def Obligations.AdiwFollowsItsRule : Prop :=
  ∀ (d : RegNum) (K : BitVec 6) (s : State), d ∈ [24, 26, 28, 30] →
    (∀ gk k, decodeWord gk
      (BitVec.ofNat 16 (0x9600 ||| (K.toNat &&& 0x30) <<< 2 ||| ((d.val - 24) / 2) <<< 4 ||| (K.toNat &&& 0x0F)))
        k = some (.adiw d K)) ∧
    (∀ c, isAvailable c (.adiw d K) = c.hasAdiw) ∧
    ∃ t, exec (.adiw d K) s = .next t ∧
      (let w := (s.reg (d + 1)).toNat * 256 + (s.reg d).toNat
       let res := (w + K.toNat) % 65536
       (t.reg d).toNat = res % 256 ∧ (t.reg (d + 1)).toNat = res / 256 ∧
       t.flags.v = (!(s.reg (d + 1))[7] && (t.reg (d + 1))[7]) ∧
       t.flags.n = (t.reg (d + 1))[7] ∧
       t.flags.z = decide (res = 0) ∧
       t.flags.c = (!(t.reg (d + 1))[7] && (s.reg (d + 1))[7])) ∧
      t.flags.s = (t.flags.n ^^ t.flags.v) ∧
      t.flags.i = s.flags.i ∧ t.flags.t = s.flags.t ∧ t.flags.h = s.flags.h ∧
      t.pc = s.pc + 1 ∧ RegsSameExcept [d, d + 1] s t ∧ TouchesNoMemory s t

/-- 40_arithmetic.md, "Arithmetic meaning of the ADIW flags" (R103, which the spec marks "derived: from rule
R102"). -/
def Obligations.AdiwFlagsMeanCarryAndOverflow : Prop :=
  ∀ (d : RegNum) (K : BitVec 6) (s t : State), d ∈ [24, 26, 28, 30] → exec (.adiw d K) s = .next t →
    (t.flags.c = true ↔ 65536 ≤ (s.pair d).toNat + K.toNat) ∧
    (t.flags.v = true ↔ (s.pair d).toNat ≤ 0x7FFF ∧ 0x8000 ≤ (s.pair d).toNat + K.toNat) ∧
    (t.flags.s = true ↔ (s.pair d).toInt + (K.toNat : Int) < 0)

/-! ### Logic -/

/-- 41_logic.md R110: AND, its encoding, its result bit by bit, its flags, and everything it leaves. -/
def Obligations.AndFollowsItsRule : Prop :=
  ∀ (d r : RegNum) (s : State),
    (∀ gk k, decodeWord gk
      (BitVec.ofNat 16 (0x2000 ||| (r.val &&& 0x10) <<< 5 ||| d.val <<< 4 ||| (r.val &&& 0x0F))) k =
        some (.and d r)) ∧
    (∀ c, isAvailable c (.and d r) = true) ∧
    ∃ t, exec (.and d r) s = .next t ∧
      (∀ n : Fin 8, (t.reg d)[n] = ((s.reg d)[n] && (s.reg r)[n])) ∧
      t.flags.v = false ∧ t.flags.n = (t.reg d)[7] ∧ t.flags.z = decide (t.reg d = 0) ∧
      t.flags.s = (t.flags.n ^^ t.flags.v) ∧
      t.flags.i = s.flags.i ∧ t.flags.t = s.flags.t ∧ t.flags.h = s.flags.h ∧ t.flags.c = s.flags.c ∧
      t.pc = s.pc + 1 ∧ RegsSameExcept [d] s t ∧ TouchesNoMemory s t

/-- 41_logic.md R111: ANDI on R16 to R31, its encoding, its result bit by bit, its flags, and everything it
leaves. -/
def Obligations.AndiFollowsItsRule : Prop :=
  ∀ (d : RegNum) (K : Byte) (s : State), 16 ≤ d.val →
    (∀ gk k, decodeWord gk
      (BitVec.ofNat 16 (0x7000 ||| (K.toNat &&& 0xF0) <<< 4 ||| (d.val - 16) <<< 4 ||| (K.toNat &&& 0x0F))) k =
        some (.andi d K)) ∧
    (∀ c, isAvailable c (.andi d K) = true) ∧
    ∃ t, exec (.andi d K) s = .next t ∧
      (∀ n : Fin 8, (t.reg d)[n] = ((s.reg d)[n] && K[n])) ∧
      t.flags.v = false ∧ t.flags.n = (t.reg d)[7] ∧ t.flags.z = decide (t.reg d = 0) ∧
      t.flags.s = (t.flags.n ^^ t.flags.v) ∧
      t.flags.i = s.flags.i ∧ t.flags.t = s.flags.t ∧ t.flags.h = s.flags.h ∧ t.flags.c = s.flags.c ∧
      t.pc = s.pc + 1 ∧ RegsSameExcept [d] s t ∧ TouchesNoMemory s t

/-- 41_logic.md, "Laws of the logic instructions" (R112, which the spec marks "derived: from rules R110 and R111"):
no bit is set that Rd did not have, S = N, V = 0, not both Z and N; ANDI is AND with a register that holds K. -/
def Obligations.LogicInstructionsObeyTheirLaws : Prop :=
  ∀ (d r : RegNum) (s t : State), exec (.and d r) s = .next t →
    t.reg d ||| s.reg d = s.reg d ∧ t.flags.s = t.flags.n ∧ t.flags.v = false ∧
    ¬(t.flags.z = true ∧ t.flags.n = true) ∧ exec (.andi d (s.reg r)) s = .next t

/-! ### Shift -/

/-- 43_shift.md R140: LSR, its encoding, its result (0 : Rd[7:1]), its flag formulas, and everything it leaves. -/
def Obligations.LsrFollowsItsRule : Prop :=
  ∀ (d : RegNum) (s : State),
    (∀ k, decodeWord true (BitVec.ofNat 16 (0x9406 ||| d.val <<< 4)) k = some (.lsr d) ∧
      decodeWord false (BitVec.ofNat 16 (0x9406 ||| d.val <<< 4)) k = none) ∧
    (∀ c, isAvailable c (.lsr d) = true) ∧
    ∃ t, exec (.lsr d) s = .next t ∧
      (t.reg d)[7] = false ∧ (∀ n : Fin 7, (t.reg d)[n.val] = (s.reg d)[n.val + 1]) ∧
      t.flags.c = (s.reg d)[0] ∧ t.flags.n = false ∧ t.flags.v = (t.flags.n ^^ t.flags.c) ∧
      t.flags.s = (t.flags.n ^^ t.flags.v) ∧ t.flags.z = decide (t.reg d = 0) ∧
      t.flags.i = s.flags.i ∧ t.flags.t = s.flags.t ∧ t.flags.h = s.flags.h ∧
      t.pc = s.pc + 1 ∧ RegsSameExcept [d] s t ∧ TouchesNoMemory s t

/-- 43_shift.md, "As arithmetic" (R140's corner cases, which the spec marks "derived: from the three formulas with
N = 0"): LSR halves, keeps the remainder in C, and leaves C = V = S. -/
def Obligations.LsrHalvesAndKeepsRemainder : Prop :=
  ∀ (d : RegNum) (s t : State), exec (.lsr d) s = .next t →
    (s.reg d).toNat = 2 * (t.reg d).toNat + (if t.flags.c then 1 else 0) ∧
    t.flags.v = t.flags.c ∧ t.flags.s = t.flags.c

/-! ### Moves and LDI -/

/-- 44_move.md R150: MOV, its encoding, its copy, and everything it leaves. -/
def Obligations.MovFollowsItsRule : Prop :=
  ∀ (d r : RegNum) (s : State),
    (∀ gk k, decodeWord gk
      (BitVec.ofNat 16 (0x2C00 ||| (r.val &&& 0x10) <<< 5 ||| d.val <<< 4 ||| (r.val &&& 0x0F))) k =
        some (.mov d r)) ∧
    (∀ c, isAvailable c (.mov d r) = true) ∧
    ∃ t, exec (.mov d r) s = .next t ∧
      t.reg d = s.reg r ∧ t.reg r = s.reg r ∧ t.flags = s.flags ∧
      t.pc = s.pc + 1 ∧ RegsSameExcept [d] s t ∧ TouchesNoMemory s t

/-- 44_move.md R151: MOVW, its encoding and availability, low to low and high to high, and everything it leaves. -/
def Obligations.MovwFollowsItsRule : Prop :=
  ∀ (d r : RegNum) (s : State), d.val % 2 = 0 → r.val % 2 = 0 →
    (∀ gk k, decodeWord gk (BitVec.ofNat 16 (0x0100 ||| (d.val / 2) <<< 4 ||| (r.val / 2))) k =
      some (.movw d r)) ∧
    (∀ c, isAvailable c (.movw d r) = c.hasMovw) ∧
    ∃ t, exec (.movw d r) s = .next t ∧
      t.reg d = s.reg r ∧ t.reg (d + 1) = s.reg (r + 1) ∧
      t.reg r = s.reg r ∧ t.reg (r + 1) = s.reg (r + 1) ∧ t.flags = s.flags ∧
      t.pc = s.pc + 1 ∧ RegsSameExcept [d, d + 1] s t ∧ TouchesNoMemory s t

/-- 42_load.md R125: LDI on R16 to R31, its encoding, its result, and everything it leaves. -/
def Obligations.LdiFollowsItsRule : Prop :=
  ∀ (d : RegNum) (K : Byte) (s : State), 16 ≤ d.val →
    (∀ gk k, decodeWord gk
      (BitVec.ofNat 16 (0xE000 ||| (K.toNat &&& 0xF0) <<< 4 ||| (d.val - 16) <<< 4 ||| (K.toNat &&& 0x0F))) k =
        some (.ldi d K)) ∧
    (∀ c, isAvailable c (.ldi d K) = true) ∧
    ∃ t, exec (.ldi d K) s = .next t ∧
      t.reg d = K ∧ t.flags = s.flags ∧
      t.pc = s.pc + 1 ∧ RegsSameExcept [d] s t ∧ TouchesNoMemory s t

/-! ### Loads from data space -/

/-- 20_memory.md R44 with R48 and R50: MemRead(a, 1) by the class of a; it changes nothing but the count of draws,
and that only for an Io address, whose byte is any byte. -/
def Obligations.MemReadGoesByClass : Prop :=
  ∀ (s : State) (a : Nat),
    (∀ i, s.cfg.classify a = .reg i → s.memRead a = .ok (s.reg i, s)) ∧
    (s.cfg.classify a = .sreg → ∃ v : Byte, s.memRead a = .ok (v, s) ∧
      v[7] = s.flags.i ∧ v[6] = s.flags.t ∧ v[5] = s.flags.h ∧ v[4] = s.flags.s ∧
      v[3] = s.flags.v ∧ v[2] = s.flags.n ∧ v[1] = s.flags.z ∧ v[0] = s.flags.c) ∧
    (s.cfg.classify a = .rampd → ∃ v : Byte, s.memRead a = .ok (v, s) ∧
      v.toNat = s.rampd.toNat % 2 ^ s.cfg.rampdBits) ∧
    (s.cfg.classify a = .ram → s.memRead a = .ok (s.ram.read a, s)) ∧
    (s.cfg.classify a = .io → ∃ v : Byte, ∃ t : State, s.memRead a = .ok (v, t) ∧
      t.draws = s.draws + 1 ∧ (∀ j, t.reg j = s.reg j) ∧ t.pc = s.pc ∧ t.flags = s.flags ∧ StoresNothing s t) ∧
    (s.cfg.classify a = .unmapped → s.memRead a = .error .unmappedDataAddress)

/-- 20_memory.md §5, the default DSMAP (R47, from general knowledge): every address of the classic map. -/
def Obligations.ClassicMapClassifiesEveryAddress : Prop :=
  ∀ (c : Config) (ramEnd a : Nat), c.dsmap = classicMap ramEnd → 0x60 ≤ ramEnd →
    (∀ h : a < 32, c.classify a = .reg ⟨a, h⟩) ∧
    (32 ≤ a → a ≤ 0x5E → c.classify a = .io) ∧
    (a = 0x5F → c.classify a = .sreg) ∧
    (0x60 ≤ a → a ≤ ramEnd → c.classify a = .ram) ∧
    (ramEnd < a → c.classify a = .unmapped)

/-- 42_load.md R126: LDS, its encoding and availability, its address RAMPD : k, the byte it loads, its pc, the
refusal of an Unmapped address and of a second word outside program memory, and everything it leaves. -/
def Obligations.LdsFollowsItsRule : Prop :=
  ∀ (d : RegNum) (k : Word) (s : State),
    (∀ gk, decodeWord gk (BitVec.ofNat 16 (0x9000 ||| d.val <<< 4)) k = some (.lds d k)) ∧
    (∀ c, isAvailable c (.lds d k) = c.hasLds32) ∧
    (s.cfg.rampdBits = 0 → s.ldsAddress k = k.toNat) ∧
    (let ea := s.rampd.toNat % 2 ^ s.cfg.rampdBits * 65536 + k.toNat
     (∀ v, DataReads s ea v →
      ∃ t, exec (.lds d k) s = .next t ∧
        t.reg d = v ∧ t.flags = s.flags ∧ t.pc = s.pc + 2 ∧ RegsSameExcept [d] s t ∧ StoresNothing s t ∧
        t.draws = s.draws + drawsOf s ea) ∧
     (s.cfg.classify ea = .unmapped → exec (.lds d k) s = .refused .unmappedDataAddress)) ∧
    (s.cfg.core ≠ .avrrc → s.cfg.hasLds32 = true → s.pc + 1 = s.cfg.flashWords →
      s.pmWord s.pc = BitVec.ofNat 16 (0x9000 ||| d.val <<< 4) → step s = .refused .pcOutOfRange)

/-- 42_load.md R121: LD Rd,Z, its encoding, the byte at Z, Z left alone unless d is a half of it, the refusal of an
Unmapped address, and everything it leaves. -/
def Obligations.LdZFollowsItsRule : Prop :=
  ∀ (d : RegNum) (s : State),
    (∀ k, decodeWord true (BitVec.ofNat 16 (0x8000 ||| d.val <<< 4)) k = some (.ldZ d)) ∧
    (∀ c, isAvailable c (.ldZ d) = true) ∧
    (s.cfg.rampzBits = 0 →
      let ea := (s.reg 31).toNat * 256 + (s.reg 30).toNat
      (∀ v, DataReads s ea v →
        ∃ t, exec (.ldZ d) s = .next t ∧
          t.reg d = v ∧ t.flags = s.flags ∧ t.pc = s.pc + 1 ∧ RegsSameExcept [d] s t ∧ StoresNothing s t ∧
          t.draws = s.draws + drawsOf s ea) ∧
      (s.cfg.classify ea = .unmapped → exec (.ldZ d) s = .refused .unmappedDataAddress))

/-- 42_load.md R122: LD Rd,Z+, its encoding, the byte at Z before the increment, Z + 1 modulo 65536, the refusals of
d = 30 or 31 and of an Unmapped address, and everything it leaves. -/
def Obligations.LdZIncFollowsItsRule : Prop :=
  ∀ (d : RegNum) (s : State),
    (∀ k, decodeWord true (BitVec.ofNat 16 (0x9001 ||| d.val <<< 4)) k = some (.ldZInc d)) ∧
    (∀ c, isAvailable c (.ldZInc d) = true) ∧
    (d = 30 ∨ d = 31 → exec (.ldZInc d) s = .refused .ldPostincIntoZ) ∧
    (d ≠ 30 → d ≠ 31 → s.cfg.rampzBits = 0 →
      let ea := (s.reg 31).toNat * 256 + (s.reg 30).toNat
      (∀ v, DataReads s ea v →
        ∃ t, exec (.ldZInc d) s = .next t ∧
          t.reg d = v ∧ (t.reg 31).toNat * 256 + (t.reg 30).toNat = (ea + 1) % 65536 ∧
          t.flags = s.flags ∧ t.pc = s.pc + 1 ∧ RegsSameExcept [d, 30, 31] s t ∧ StoresNothing s t ∧
          t.draws = s.draws + drawsOf s ea) ∧
      (s.cfg.classify ea = .unmapped → exec (.ldZInc d) s = .refused .unmappedDataAddress))

/-- 42_load.md R123: LD Rd,-Z, its encoding, Z - 1 modulo 65536, the byte at the decremented address, the refusals of
d = 30 or 31 and of an Unmapped address, and everything it leaves. What a read of Z's own bytes gives (an address
of class Reg(30) or Reg(31)) the spec marks as derived: `LdZDecReadsItsDecrementedZ`. -/
def Obligations.LdZDecFollowsItsRule : Prop :=
  ∀ (d : RegNum) (s : State),
    (∀ k, decodeWord true (BitVec.ofNat 16 (0x9002 ||| d.val <<< 4)) k = some (.ldZDec d)) ∧
    (∀ c, isAvailable c (.ldZDec d) = true) ∧
    (d = 30 ∨ d = 31 → exec (.ldZDec d) s = .refused .ldPredecIntoZ) ∧
    (d ≠ 30 → d ≠ 31 → s.cfg.rampzBits = 0 →
      let ea := ((s.reg 31).toNat * 256 + (s.reg 30).toNat + 65535) % 65536
      (∀ v, DataReads s ea v → s.cfg.classify ea ≠ .reg 30 → s.cfg.classify ea ≠ .reg 31 →
        ∃ t, exec (.ldZDec d) s = .next t ∧
          t.reg d = v ∧ (t.reg 31).toNat * 256 + (t.reg 30).toNat = ea ∧
          t.flags = s.flags ∧ t.pc = s.pc + 1 ∧ RegsSameExcept [d, 30, 31] s t ∧ StoresNothing s t ∧
          t.draws = s.draws + drawsOf s ea) ∧
      (s.cfg.classify ea = .unmapped → exec (.ldZDec d) s = .refused .unmappedDataAddress))

/-- 42_load.md, LD Rd,-Z, corner cases ("the byte read is the value after the decrement", which the spec marks as
derived; log 17): an address that is an alias of r30 or r31 reads the decremented half of Z. -/
def Obligations.LdZDecReadsItsDecrementedZ : Prop :=
  ∀ (d : RegNum) (s : State), d ≠ 30 → d ≠ 31 → s.cfg.rampzBits = 0 →
    let ea := ((s.reg 31).toNat * 256 + (s.reg 30).toNat + 65535) % 65536
    (s.cfg.classify ea = .reg 30 ∨ s.cfg.classify ea = .reg 31) →
      ∃ t, exec (.ldZDec d) s = .next t ∧
        (t.reg d).toNat = (if s.cfg.classify ea = .reg 30 then ea % 256 else ea / 256) ∧
        (t.reg 31).toNat * 256 + (t.reg 30).toNat = ea ∧
        t.flags = s.flags ∧ t.pc = s.pc + 1 ∧ RegsSameExcept [d, 30, 31] s t ∧ TouchesNoMemory s t

/-- 42_load.md R124: LDD Rd,Z+q, its encoding and availability, the byte at Z + q modulo 65536, Z left alone unless d
is a half of it, q = 0 being the word and the effect of LD Rd,Z, the refusal of an Unmapped address, and
everything it leaves. -/
def Obligations.LddZFollowsItsRule : Prop :=
  ∀ (d : RegNum) (q : BitVec 6) (s : State),
    (∀ k, decodeWord true
      (BitVec.ofNat 16 (0x8000 ||| (q.toNat &&& 0x20) <<< 8 ||| (q.toNat &&& 0x18) <<< 7 ||| d.val <<< 4
        ||| (q.toNat &&& 0x07))) k = some (if q = 0 then .ldZ d else .lddZ d q)) ∧
    exec (.lddZ d 0) s = exec (.ldZ d) s ∧
    (∀ c, isAvailable c (.lddZ d q) = c.hasLdd) ∧
    (s.cfg.rampzBits = 0 →
      let ea := ((s.reg 31).toNat * 256 + (s.reg 30).toNat + q.toNat) % 65536
      (∀ v, DataReads s ea v →
        ∃ t, exec (.lddZ d q) s = .next t ∧
          t.reg d = v ∧ t.flags = s.flags ∧ t.pc = s.pc + 1 ∧ RegsSameExcept [d] s t ∧ StoresNothing s t ∧
          t.draws = s.draws + drawsOf s ea) ∧
      (s.cfg.classify ea = .unmapped → exec (.lddZ d q) s = .refused .unmappedDataAddress))

/-- 92_eei_decisions.md D24 ("otherwise refused"; the refusal's name and place are the model's choice, log 12): on a
device whose Z has an extension register, no LD form has a next state. -/
def Obligations.LdWithExtensionRegisterIsRefused : Prop :=
  ∀ (d : RegNum) (q : BitVec 6) (s : State), s.cfg.rampzBits ≠ 0 →
    exec (.ldZ d) s = .refused .rampzNotModelled ∧ exec (.lddZ d q) s = .refused .rampzNotModelled ∧
    (d ≠ 30 → d ≠ 31 → exec (.ldZInc d) s = .refused .rampzNotModelled ∧
      exec (.ldZDec d) s = .refused .rampzNotModelled)

/-- 20_memory.md §6: every mapped address is readable by LDS and by LD alike. In segment 0, LDS Rd,k and LD Rd,Z with
Z = k end in the same state but for the length of the instruction. -/
def Obligations.LdsAndLdReadAlike : Prop :=
  ∀ (d : RegNum) (s t : State), s.cfg.rampzBits = 0 → s.rampdVal = 0 →
    exec (.ldZ d) s = .next t → exec (.lds d s.z) s = .next { t with pc := s.pc + 2 }

/-! ### The whole machine -/

/-- 10_state.md §3, the table of flag writes (R27): I and T are written by nothing, H only by ADD, C only by ADD, ADIW
and LSR, and S, V, N, Z only by those and the logic instructions; V is cleared by AND and ANDI, N by LSR. -/
def Obligations.FlagsAreWrittenOnlyAsTabled : Prop :=
  ∀ (i : Instr) (s t : State), exec i s = .next t →
    t.flags.i = s.flags.i ∧ t.flags.t = s.flags.t ∧
    ((∀ d r, i ≠ .add d r) → t.flags.h = s.flags.h) ∧
    ((∀ d r, i ≠ .add d r) → (∀ d K, i ≠ .adiw d K) → (∀ d, i ≠ .lsr d) →
      t.flags.c = s.flags.c ∧
      ((∀ d r, i ≠ .and d r) → (∀ d K, i ≠ .andi d K) → t.flags = s.flags)) ∧
    (∀ d r, i = .and d r → t.flags.v = false) ∧ (∀ d K, i = .andi d K → t.flags.v = false) ∧
    (∀ d, i = .lsr d → t.flags.n = false)

/-- 10_state.md §3 ("No instruction in scope reads any flag as an input"): whatever SREG holds before, the registers,
pc and the flags an instruction writes come out the same; only a load from the address of SREG sees the flags. -/
def Obligations.NoInstructionTakesAFlagAsInput : Prop :=
  ∀ (i : Instr) (s t : State) (f : Flags), exec i s = .next t →
    (∀ a, dataAddress i s = some a → s.cfg.classify a ≠ .sreg) →
    ∃ u, exec i (s.setFlags f) = .next u ∧ (∀ j, u.reg j = t.reg j) ∧ u.pc = t.pc ∧ u.draws = t.draws ∧
      ((t.flags = s.flags ∧ u.flags = f) ∨
        (u.flags.s = t.flags.s ∧ u.flags.v = t.flags.v ∧ u.flags.n = t.flags.n ∧ u.flags.z = t.flags.z ∧
          (u.flags.c = t.flags.c ∨ (t.flags.c = s.flags.c ∧ u.flags.c = f.c)) ∧
          (u.flags.h = t.flags.h ∨ (t.flags.h = s.flags.h ∧ u.flags.h = f.h)) ∧
          u.flags.i = f.i ∧ u.flags.t = f.t))

/-- 00_scope.md §1 ("Nothing in the source makes the result an instruction computes depend on CORE"): on another core
variant the same instruction completes with the same state but for that variant. -/
def Obligations.ResultDoesNotDependOnCoreVariant : Prop :=
  ∀ (i : Instr) (s t : State) (core : CoreVariant), exec i s = .next t →
    exec i (withCore s core) = .next (withCore t core)

/-- 20_memory.md §3 (R43): an instruction that is no load performs no data-space access: it computes the same whatever
data memory, RAMPD and the I/O registers hold, and leaves them. -/
def Obligations.OnlyLoadsTouchDataSpace : Prop :=
  ∀ (i : Instr) (s : State) (ram : Memory) (rampd : Byte) (draws : Nat), readsDataSpace i = false →
    ∃ t, exec i s = .next t ∧
      exec i (withDataSpace s ram rampd draws) = .next (withDataSpace t ram rampd draws) ∧
      t = withDataSpace t s.ram s.rampd s.draws

/-- 10_state.md §2, 70_reset_and_hazards.md §2 (R24, R183): a step that completes runs the instruction decoded at pc,
which lies with all its words inside program memory, and adds its length in words to pc. -/
def Obligations.StepAddsTheLengthToPc : Prop :=
  ∀ s t : State, step s = .next t →
    ∃ i, decodeWord s.cfg.admitGk (s.pmWord s.pc) (s.pmWord (s.pc + 1)) = some i ∧ exec i s = .next t ∧
      isAvailable s.cfg i = true ∧ s.cfg.core ≠ .avrrc ∧
      t.pc = s.pc + i.words ∧ t.pc ≤ s.cfg.flashWords ∧ s.pc < t.pc

/-- The invariant of the machine (pc at most FLASH_WORDS, R25; RAMPD within its width, R29; both memories canonical;
the parameters sensible) is kept by every step, from every state that has it. -/
def Obligations.StepKeepsTheInvariant : Prop :=
  ∀ s t : State, MachineInv s → step s = .next t → MachineInv t

/-- State.reset is a launch state (10_state.md §7) of a device with sensible parameters: pc = ENTRY, and the
invariant holds; so does any launch state with other registers and flags. The values of reset that the spec leaves
open are the model's (logs 2 to 5, 30), and nothing here names one. -/
def Obligations.LaunchStatesHaveTheInvariant : Prop :=
  Launch State.reset ∧
  ∀ (s : State) (i : RegNum) (v : Byte) (f : Flags) (a : Nat) (w : Word) (x : Nat) (b : Byte),
    Launch s → s.cfg.classify x = .ram →
    Launch ((((s.setReg i v).setFlags f).placeWord a w).placeByte x b)

/-- 70_reset_and_hazards.md §2 (R183), 20_memory.md §3 and §7 (R45, R55), 10_state.md (R29): in a run of n steps from
any state, pc moves forward by n to 2n words, and program memory, data memory, RAMPD, the device and the flags I and
T never change. -/
def Obligations.RunsAreStraightLineAndStoreNothing : Prop :=
  ∀ (n : Nat) (s t : State), Host.Core.run Sys2Proof.core n s = .next t →
    s.pc + n ≤ t.pc ∧ t.pc ≤ s.pc + 2 * n ∧ StoresNothing s t ∧ s.draws ≤ t.draws ∧ t.draws ≤ s.draws + n ∧
    t.flags.i = s.flags.i ∧ t.flags.t = s.flags.t

/-- 70_reset_and_hazards.md §2 (R184, R183): a run that ends, ends with pc = END, is found within END - pc steps, and a
run that has gone past END never ends. -/
def Obligations.RunsEndAtEndOrNever : Prop :=
  ∀ (n : Nat) (s : State),
    (∀ t, runToEnd n s = some t →
      t.pc = s.cfg.endAddr ∧ t.cfg = s.cfg ∧ runToEnd (s.cfg.endAddr - s.pc) s = some t) ∧
    (s.cfg.endAddr < s.pc → runToEnd n s = none)

/-! ### The tables and the text -/

/-- 70_reset_and_hazards.md §4 and 00_scope.md §4: the cycles tables say N/A exactly where the default device of the
core lacks the instruction: ADIW and LDD on AVRrc. -/
def Obligations.NotAvailableMatchesTheCyclesTables : Prop :=
  ∀ (core : CoreVariant) (i : Instr),
    cyclesOf core i = .notAvailable ↔ isAvailable (Config.forCore core) i = false

/-- 30_encoding.md §7 (R77): what the disassembler writes for a well-formed instruction, the assembler reads back as
that instruction. -/
def Obligations.AssemblerReadsWhatIsPrinted : Prop :=
  ∀ i : Instr, i.wellFormed = true → Asm.read (Asm.print i) = some i
end

