-- ==== Sys2Proof/Laws/Memory.lean ====
section
/-! SUPPORT. The laws of memory: what a read finds after a write, and that writes keep the canonical form. -/
namespace Sys2Proof.Machine

/-- Below every listed address, a memory reads as blank. -/
theorem Memory.read_below (m : Memory) (a : Nat) (h : ∀ c ∈ m, a < c.1) : m.read a = Memory.blank := by
  induction m with
  | nil => rfl
  | cons c m ih =>
    have h1 := h c (by simp)
    rw [Memory.read, if_neg (by omega)]
    exact ih fun c' hc' => h c' (by simp [hc'])

/-- The parts of the canonical form of a memory with a first cell. -/
theorem Memory.wf_cons {a : Nat} {v : Byte} {m : Memory} :
    Memory.wf ((a, v) :: m) = true ↔ v ≠ Memory.blank ∧ (∀ c ∈ m, a < c.1) ∧ Memory.wf m = true := by
  simp [Memory.wf, and_assoc]

/-- A read after a write: the byte written there, every other byte as before. -/
theorem Memory.read_write (m : Memory) (hm : m.wf = true) (a b : Nat) (v : Byte) :
    (m.write a v).read b = if b = a then v else m.read b := by
  induction m with
  | nil => by_cases hv : v = Memory.blank <;> by_cases hb : b = a <;> simp [Memory.write, Memory.read, hv, hb]
  | cons c m ih =>
    obtain ⟨c, u⟩ := c
    obtain ⟨-, hlt, hwf⟩ := Memory.wf_cons.1 hm
    rw [Memory.write]
    split
    · next hac =>
      split
      · next hv =>
        split
        · next hba =>
          subst hba hv
          refine Memory.read_below _ _ fun c' hc' => ?_
          rcases List.mem_cons.1 hc' with rfl | h
          · exact hac
          · exact Nat.lt_trans hac (hlt _ h)
        · rfl
      · rw [Memory.read]
    · split
      · next hac =>
        subst hac
        split
        · next hv =>
          by_cases hb : b = a
          · rw [if_pos hb, hb, hv]
            exact Memory.read_below _ _ hlt
          · rw [if_neg hb, Memory.read, if_neg hb]
        · by_cases hb : b = a <;> simp [Memory.read, hb]
      · next hlt' hac =>
        rw [Memory.read, ih hwf, Memory.read]
        by_cases hbc : b = c
        · rw [if_pos hbc, if_pos hbc, if_neg (by omega)]
        · rw [if_neg hbc, if_neg hbc]

/-- An address listed after a write was listed before or is the one written. -/
theorem Memory.mem_write (m : Memory) (a : Nat) (v : Byte) :
    ∀ c ∈ m.write a v, c.1 = a ∨ c ∈ m := by
  induction m with
  | nil =>
    intro c hc
    rw [Memory.write] at hc
    split at hc <;> simp_all
  | cons x m ih =>
    obtain ⟨x, u⟩ := x
    intro c hc
    rw [Memory.write] at hc
    split at hc
    · split at hc
      · exact .inr hc
      · rcases List.mem_cons.1 hc with rfl | h
        · exact .inl rfl
        · exact .inr h
    · split at hc
      · next hax =>
        split at hc
        · exact .inr (List.mem_cons_of_mem _ hc)
        · rcases List.mem_cons.1 hc with rfl | h
          · exact .inl rfl
          · exact .inr (List.mem_cons_of_mem _ h)
      · rcases List.mem_cons.1 hc with rfl | h
        · exact .inr (by simp)
        · exact (ih c h).imp_right (List.mem_cons_of_mem _)

/-- A write keeps the canonical form. -/
theorem Memory.write_wf (m : Memory) (hm : m.wf = true) (a : Nat) (v : Byte) : (m.write a v).wf = true := by
  induction m with
  | nil => by_cases hv : v = Memory.blank <;> simp [Memory.write, Memory.wf, hv]
  | cons c m ih =>
    obtain ⟨c, u⟩ := c
    obtain ⟨hu, hlt, hwf⟩ := Memory.wf_cons.1 hm
    rw [Memory.write]
    split
    · next hac =>
      split
      · exact hm
      · next hv =>
        refine Memory.wf_cons.2 ⟨hv, fun c' hc' => ?_, hm⟩
        rcases List.mem_cons.1 hc' with rfl | h
        · exact hac
        · exact Nat.lt_trans hac (hlt _ h)
    · split
      · next hac =>
        split
        · exact hwf
        · next hv => exact Memory.wf_cons.2 ⟨hv, hac ▸ hlt, hwf⟩
      · refine Memory.wf_cons.2 ⟨hu, fun c' hc' => ?_, ih hwf⟩
        rcases Memory.mem_write m a v c' hc' with h | h
        · omega
        · exact hlt _ h

/-- Placing a word keeps program memory canonical. -/
theorem State.placeWord_pm_wf (s : State) (a : Nat) (w : Word) (h : s.pm.wf = true) :
    (s.placeWord a w).pm.wf = true :=
  Memory.write_wf _ (Memory.write_wf _ h _ _) _ _

/-- Placing a byte keeps data memory canonical. -/
theorem State.placeByte_ram_wf (s : State) (a : Nat) (v : Byte) (h : s.ram.wf = true) :
    (s.placeByte a v).ram.wf = true :=
  Memory.write_wf _ h _ _

/-- Placing an image keeps program memory canonical. -/
theorem State.loadImage_pm_wf (bs : List Byte) : ∀ (s : State) (a : Nat), s.pm.wf = true →
    (s.loadImage a bs).pm.wf = true := by
  induction bs with
  | nil => exact fun _ _ h => h
  | cons b bs ih => exact fun s a h => ih _ _ (Memory.write_wf _ h _ _)

/-- Two memories in canonical form that read alike everywhere are equal data. -/
theorem Memory.ext_of_wf : ∀ (m n : Memory), m.wf = true → n.wf = true → (∀ a, m.read a = n.read a) → m = n := by
  intro m
  induction m with
  | nil =>
    intro n _ hn h
    cases n with
    | nil => rfl
    | cons c n =>
      obtain ⟨c, u⟩ := c
      have hb := h c
      simp only [Memory.read, if_pos] at hb
      exact absurd hb.symm (Memory.wf_cons.1 hn).1
  | cons c m ih =>
    obtain ⟨c, u⟩ := c
    intro n hm hn h
    obtain ⟨hu, hmlt, hmw⟩ := Memory.wf_cons.1 hm
    cases n with
    | nil =>
      have hb := h c
      simp only [Memory.read, if_pos] at hb
      exact absurd hb hu
    | cons e n =>
      obtain ⟨e, x⟩ := e
      obtain ⟨hx, hnlt, hnw⟩ := Memory.wf_cons.1 hn
      have hce : c = e := by
        rcases Nat.lt_trichotomy c e with hlt | heq | hlt
        · have hb := h c
          rw [Memory.read, if_pos rfl, Memory.read_below _ c (by
            intro c' hc'
            rcases List.mem_cons.1 hc' with rfl | h'
            · exact hlt
            · exact Nat.lt_trans hlt (hnlt _ h'))] at hb
          exact absurd hb hu
        · exact heq
        · have hb := h e
          rw [Memory.read_below _ e (by
            intro c' hc'
            rcases List.mem_cons.1 hc' with rfl | h'
            · exact hlt
            · exact Nat.lt_trans hlt (hmlt _ h')), Memory.read, if_pos rfl] at hb
          exact absurd hb.symm hx
      subst hce
      have hux : u = x := by simpa [Memory.read] using h c
      subst hux
      congr 1
      refine ih n hmw hnw fun a => ?_
      by_cases ha : a = c
      · subst ha
        rw [Memory.read_below _ _ hmlt, Memory.read_below _ _ hnlt]
      · simpa [Memory.read, ha] using h a

/-- A program word after a byte write elsewhere and the word just placed. -/
theorem State.pmWord_placeWord (s : State) (h : s.pm.wf = true) (a b : Nat) (w : Word) :
    (s.placeWord a w).pmWord b = if b = a then w.extractLsb' 8 8 ++ w.extractLsb' 0 8 else s.pmWord b := by
  have h1 := Memory.write_wf s.pm h (2 * a) (w.extractLsb' 0 8)
  simp only [State.pmWord, State.placeWord, Memory.read_write _ h1, Memory.read_write _ h]
  by_cases hb : b = a
  · subst hb; simp
  · rw [if_neg (by omega), if_neg (by omega), if_neg (by omega), if_neg (by omega), if_neg hb]

end Sys2Proof.Machine
end

