-- ==== Sys2Proof/Laws/State.lean ====
section
/-! SUPPORT. What each update of the state leaves in each field: one lemma a field and update. -/
namespace Sys2Proof.Machine

section
variable (s : State) (d j : RegNum) (v : Byte) (w : Word) (f : Flags) (n a : Nat)

theorem State.setReg_reg : (s.setReg d v).reg j = if j = d then v else s.reg j := by
  simp only [State.setReg, State.reg, Fin.getElem_fin, Vector.getElem_set, Fin.ext_iff, eq_comm]

@[simp] theorem State.setReg_reg_self : (s.setReg d v).reg d = v := by simp [State.setReg_reg]

theorem State.setReg_reg_ne (h : j ≠ d) : (s.setReg d v).reg j = s.reg j := by
  simp [State.setReg_reg, h]

@[simp] theorem State.setReg_cfg : (s.setReg d v).cfg = s.cfg := rfl
@[simp] theorem State.setReg_pc : (s.setReg d v).pc = s.pc := rfl
@[simp] theorem State.setReg_flags : (s.setReg d v).flags = s.flags := rfl
@[simp] theorem State.setReg_rampd : (s.setReg d v).rampd = s.rampd := rfl
@[simp] theorem State.setReg_pm : (s.setReg d v).pm = s.pm := rfl
@[simp] theorem State.setReg_ram : (s.setReg d v).ram = s.ram := rfl
@[simp] theorem State.setReg_draws : (s.setReg d v).draws = s.draws := rfl

@[simp] theorem State.setFlags_reg : (s.setFlags f).reg j = s.reg j := rfl
@[simp] theorem State.setFlags_cfg : (s.setFlags f).cfg = s.cfg := rfl
@[simp] theorem State.setFlags_pc : (s.setFlags f).pc = s.pc := rfl
@[simp] theorem State.setFlags_flags : (s.setFlags f).flags = f := rfl
@[simp] theorem State.setFlags_rampd : (s.setFlags f).rampd = s.rampd := rfl
@[simp] theorem State.setFlags_pm : (s.setFlags f).pm = s.pm := rfl
@[simp] theorem State.setFlags_ram : (s.setFlags f).ram = s.ram := rfl
@[simp] theorem State.setFlags_draws : (s.setFlags f).draws = s.draws := rfl

@[simp] theorem State.advance_reg : (s.advance n).reg j = s.reg j := rfl
@[simp] theorem State.advance_cfg : (s.advance n).cfg = s.cfg := rfl
@[simp] theorem State.advance_pc : (s.advance n).pc = s.pc + n := rfl
@[simp] theorem State.advance_flags : (s.advance n).flags = s.flags := rfl
@[simp] theorem State.advance_rampd : (s.advance n).rampd = s.rampd := rfl
@[simp] theorem State.advance_pm : (s.advance n).pm = s.pm := rfl
@[simp] theorem State.advance_ram : (s.advance n).ram = s.ram := rfl
@[simp] theorem State.advance_draws : (s.advance n).draws = s.draws := rfl

theorem State.setPair_reg : (s.setPair d w).reg j =
    if j = d + 1 then w.extractLsb' 8 8 else if j = d then w.extractLsb' 0 8 else s.reg j := by
  simp [State.setPair, State.setReg_reg]

@[simp] theorem State.setPair_reg_low : (s.setPair d w).reg d = w.extractLsb' 0 8 := by
  simp [State.setPair_reg]

@[simp] theorem State.setPair_reg_high : (s.setPair d w).reg (d + 1) = w.extractLsb' 8 8 := by
  simp [State.setPair_reg]

@[simp] theorem State.setPair_pair : (s.setPair d w).pair d = w := by
  simp [State.pair, Word.join_halves]

/-- A pair as a number, high register first. -/
theorem State.pair_toNat : (s.pair d).toNat = (s.reg (d + 1)).toNat * 256 + (s.reg d).toNat :=
  toNat_append_eq_add _ _

/-- Z as a number (10_state.md R23). -/
theorem State.z_toNat : s.z.toNat = (s.reg 31).toNat * 256 + (s.reg 30).toNat := s.pair_toNat 30

@[simp] theorem State.setPair_cfg : (s.setPair d w).cfg = s.cfg := rfl
@[simp] theorem State.setPair_pc : (s.setPair d w).pc = s.pc := rfl
@[simp] theorem State.setPair_flags : (s.setPair d w).flags = s.flags := rfl
@[simp] theorem State.setPair_rampd : (s.setPair d w).rampd = s.rampd := rfl
@[simp] theorem State.setPair_pm : (s.setPair d w).pm = s.pm := rfl
@[simp] theorem State.setPair_ram : (s.setPair d w).ram = s.ram := rfl
@[simp] theorem State.setPair_draws : (s.setPair d w).draws = s.draws := rfl

@[simp] theorem State.placeWord_reg : (s.placeWord a w).reg j = s.reg j := rfl
@[simp] theorem State.placeWord_cfg : (s.placeWord a w).cfg = s.cfg := rfl
@[simp] theorem State.placeWord_pc : (s.placeWord a w).pc = s.pc := rfl
@[simp] theorem State.placeWord_flags : (s.placeWord a w).flags = s.flags := rfl
@[simp] theorem State.placeWord_rampd : (s.placeWord a w).rampd = s.rampd := rfl
@[simp] theorem State.placeWord_ram : (s.placeWord a w).ram = s.ram := rfl
@[simp] theorem State.placeWord_draws : (s.placeWord a w).draws = s.draws := rfl

@[simp] theorem State.placeByte_reg : (s.placeByte a v).reg j = s.reg j := rfl
@[simp] theorem State.placeByte_cfg : (s.placeByte a v).cfg = s.cfg := rfl
@[simp] theorem State.placeByte_pc : (s.placeByte a v).pc = s.pc := rfl
@[simp] theorem State.placeByte_flags : (s.placeByte a v).flags = s.flags := rfl
@[simp] theorem State.placeByte_rampd : (s.placeByte a v).rampd = s.rampd := rfl
@[simp] theorem State.placeByte_pm : (s.placeByte a v).pm = s.pm := rfl
@[simp] theorem State.placeByte_draws : (s.placeByte a v).draws = s.draws := rfl

/-- A program word depends on program memory alone. -/
theorem State.pmWord_congr {s t : State} (h : t.pm = s.pm) (a : Nat) : t.pmWord a = s.pmWord a := by
  simp [State.pmWord, h]

end

end Sys2Proof.Machine
end

