-- ==== Sys2Proof/Laws/Ops.lean ====
section
/-! SUPPORT. What each shared operation can do, said once: a read of data space, a load, a load through Z, a fetch,
a step. -/
namespace Sys2Proof.Machine

/-- A read of data space that succeeds changes at most the count of draws, by one for an Io address. -/
theorem State.memRead_ok {s t : State} {a : Nat} {v : Byte} (h : s.memRead a = .ok (v, t)) :
    s.cfg.classify a ≠ .unmapped ∧
    t = { s with draws := s.draws + if s.cfg.classify a = .io then 1 else 0 } := by
  unfold State.memRead at h
  split at h <;> simp_all

/-- A read of data space fails only at an Unmapped address. -/
theorem State.memRead_error {s : State} {a : Nat} {r : Refusal} (h : s.memRead a = .error r) :
    s.cfg.classify a = .unmapped ∧ r = .unmappedDataAddress := by
  unfold State.memRead at h
  split at h <;> simp_all

/-- An Unmapped address is refused. -/
theorem State.memRead_unmapped {s : State} {a : Nat} (h : s.cfg.classify a = .unmapped) :
    s.memRead a = .error .unmappedDataAddress := by
  simp [State.memRead, h]

/-- A load that succeeds writes the byte read into its register, and counts the draw. -/
theorem State.load_ok {s t : State} {d : RegNum} {a : Nat} (h : s.load d a = .ok t) :
    ∃ v u, s.memRead a = .ok (v, u) ∧ t = u.setReg d v := by
  unfold State.load at h
  split at h
  · next v u hm => exact ⟨v, u, hm, by simpa using h.symm⟩
  · cases h

/-- A load through Z that completes: no extension register, and the byte read at ea lands in d before what the form
does after. -/
theorem State.loadThroughZ_next {s t : State} {d : RegNum} {ea : Word} {after : State → State}
    (h : s.loadThroughZ d ea after = .next t) :
    s.cfg.rampzBits = 0 ∧
    ∃ v u, s.memRead ea.toNat = .ok (v, u) ∧ t = (after (u.setReg d v)).advance 1 := by
  unfold State.loadThroughZ at h
  split at h
  · next hz =>
    split at h
    · next t' ht =>
      obtain ⟨v, u, hm, rfl⟩ := State.load_ok ht
      exact ⟨hz, v, u, hm, by simpa using h.symm⟩
    · cases h
  · cases h

/-- The fetch of an instruction, check by check (70_reset_and_hazards.md R182). -/
theorem State.fetch_ok_iff {s : State} {i : Instr} :
    s.fetch = .ok i ↔
      s.cfg.core ≠ .avrrc ∧ s.pc < s.cfg.flashWords ∧
      decodeWord s.cfg.admitGk (s.pmWord s.pc) (s.pmWord (s.pc + 1)) = some i ∧
      isAvailable s.cfg i = true ∧ (i.words = 2 → s.pc + 1 < s.cfg.flashWords) := by
  unfold State.fetch
  split
  · next h => simp [h]
  · next hc =>
    split
    · next h => simp; omega
    · next hp =>
      split
      · next h => simp [h]
      · next j h =>
        split
        · next ha =>
          simp only [reduceCtorEq, h, Option.some.injEq, false_iff]
          rintro ⟨-, -, rfl, ha', -⟩
          simp [ha] at ha'
        · next ha =>
          split
          · next hw =>
            simp only [reduceCtorEq, h, Option.some.injEq, false_iff]
            rintro ⟨-, -, rfl, -, hlt⟩
            have := hlt hw.1
            omega
          · next hw =>
            simp only [Except.ok.injEq, h, Option.some.injEq]
            constructor
            · rintro rfl
              refine ⟨hc, by omega, rfl, by simpa using ha, fun h2 => ?_⟩
              by_contra hlt
              exact hw ⟨h2, by omega⟩
            · exact fun h => h.2.2.1

/-- A step that completes fetched an instruction and performed it. -/
theorem step_next {s t : State} (h : step s = .next t) : ∃ i, s.fetch = .ok i ∧ exec i s = .next t := by
  unfold step at h
  split at h
  · next i hi => exact ⟨i, hi, h⟩
  · cases h

end Sys2Proof.Machine
end

