-- ==== Sys2Proof/Laws/Exec.lean ====
section
/-! SUPPORT. What the meaning of any instruction does to the fields it does not compute, said once. -/
namespace Sys2Proof.Machine

/-- Every instruction is one or two words long (30_encoding.md R60). -/
theorem Instr.words_one_or_two (i : Instr) : i.words = 1 ∨ i.words = 2 := by
  cases i <;> simp [Instr.words]

/-- What a completed instruction has in common with every other: the device, RAMPD, both memories and the flags I and T
are as before, pc has moved over the instruction, and at most one draw was made. -/
structure CommonEffect (i : Instr) (s t : State) : Prop where
  cfg : t.cfg = s.cfg
  pc : t.pc = s.pc + i.words
  rampd : t.rampd = s.rampd
  pm : t.pm = s.pm
  ram : t.ram = s.ram
  flagI : t.flags.i = s.flags.i
  flagT : t.flags.t = s.flags.t
  draws : t.draws = s.draws ∨ t.draws = s.draws + 1

/-- The common effect of a load: a read of data space, a register write, what `after` does to the registers, and the
advance of pc. -/
theorem CommonEffect.of_load {i : Instr} {s u t : State} {a : Nat} {v : Byte} (hm : s.memRead a = .ok (v, u))
    (ht : ∃ regs, t = { u with regs := regs, pc := u.pc + i.words }) : CommonEffect i s t := by
  obtain ⟨regs, rfl⟩ := ht
  obtain ⟨-, rfl⟩ := State.memRead_ok hm
  refine ⟨rfl, rfl, rfl, rfl, rfl, rfl, rfl, ?_⟩
  show s.draws + _ = s.draws ∨ s.draws + _ = s.draws + 1
  split <;> simp

/-- Every instruction that completes has the common effect. -/
theorem exec_commonEffect {i : Instr} {s t : State} (h : exec i s = .next t) : CommonEffect i s t := by
  cases i with
  | movw d r => cases h; exact ⟨rfl, rfl, rfl, rfl, rfl, rfl, rfl, .inl rfl⟩
  | add d r => cases h; exact ⟨rfl, rfl, rfl, rfl, rfl, rfl, rfl, .inl rfl⟩
  | and d r => cases h; exact ⟨rfl, rfl, rfl, rfl, rfl, rfl, rfl, .inl rfl⟩
  | mov d r => cases h; exact ⟨rfl, rfl, rfl, rfl, rfl, rfl, rfl, .inl rfl⟩
  | andi d K => cases h; exact ⟨rfl, rfl, rfl, rfl, rfl, rfl, rfl, .inl rfl⟩
  | ldi d K => cases h; exact ⟨rfl, rfl, rfl, rfl, rfl, rfl, rfl, .inl rfl⟩
  | adiw d K => cases h; exact ⟨rfl, rfl, rfl, rfl, rfl, rfl, rfl, .inl rfl⟩
  | lsr d => cases h; exact ⟨rfl, rfl, rfl, rfl, rfl, rfl, rfl, .inl rfl⟩
  | lds d k =>
    replace h : (match s.load d (s.ldsAddress k) with
      | .ok t => Host.Outcome.next (t.advance 2)
      | .error r => .refused r) = .next t := h
    split at h
    · next w hw =>
      obtain ⟨v, u, hm, rfl⟩ := State.load_ok hw
      cases h
      exact .of_load hm ⟨_, rfl⟩
    · cases h
  | ldZ d =>
    obtain ⟨-, v, u, hm, rfl⟩ := State.loadThroughZ_next h
    exact .of_load hm ⟨_, rfl⟩
  | lddZ d q =>
    obtain ⟨-, v, u, hm, rfl⟩ := State.loadThroughZ_next h
    exact .of_load hm ⟨_, rfl⟩
  | ldZInc d =>
    replace h : execLdZInc d s = .next t := h
    unfold execLdZInc at h
    split at h
    · cases h
    · obtain ⟨-, v, u, hm, rfl⟩ := State.loadThroughZ_next h
      exact .of_load hm ⟨_, rfl⟩
  | ldZDec d =>
    replace h : execLdZDec d s = .next t := h
    unfold execLdZDec at h
    split at h
    · cases h
    · obtain ⟨-, v, u, hm, rfl⟩ := State.loadThroughZ_next h
      have e : CommonEffect (.ldZDec d) (s.setPair zLow (s.z - 1)) ((u.setReg d v).advance 1) := .of_load hm ⟨_, rfl⟩
      exact ⟨e.1, e.2, e.3, e.4, e.5, e.6, e.7, e.8⟩

end Sys2Proof.Machine
end

