-- ==== Sys2Proof/Laws/PerInstr.lean ====
section
/-! SUPPORT. Per-instruction laws: an instruction's encoding has its length in words, and its first word tells the
length (30_encoding.md R60, R61). -/
namespace Sys2Proof.Laws.Length

/-- The encoding has `words` words, one or two, and its first word matches the LDS pattern exactly when it is two. -/
def Statement (i : Instr) : Prop :=
  (encodeWords i).length = i.words ∧
    ∀ w ∈ (encodeWords i).head?, (w &&& 0xFE0F = 0x9000 ↔ i.words = 2)

/-- A one-word instruction whose word is no LDS word. -/
theorem oneWord {i : Instr} {w : Word} (he : encodeWords i = [w]) (hl : i.words = 1)
    (h : ¬(w &&& 0xFE0F = 0x9000)) : Statement i := by
  refine ⟨by rw [he, hl]; rfl, fun x hx => ?_⟩
  obtain rfl : w = x := by simpa [he] using hx
  simpa [hl] using h

/-- The words of ADD, AND and MOV are no LDS words. -/
theorem rdRr_notLds : ∀ d r : RegNum, ¬(wordRdRr 0b000011#6 d r &&& 0xFE0F = 0x9000) ∧
    ¬(wordRdRr 0b001000#6 d r &&& 0xFE0F = 0x9000) ∧ ¬(wordRdRr 0b001011#6 d r &&& 0xFE0F = 0x9000) := by
  decide +kernel

/-- No word of LDS's fixed bits begins with the opcode of ANDI or LDI. -/
theorem lds_opcode_bits {w : Word} (h : w &&& 0xFE0F = 0x9000) : w.toNat / 4096 = 9 := by
  have e := congrArg BitVec.toNat h
  have top : (w &&& 0xFE0F).toNat / 4096 = w.toNat / 4096 % 16 := by
    rw [BitVec.toNat_and, ← Nat.shiftRight_eq_div_pow _ 12, Nat.shiftRight_and_distrib,
      ← Nat.shiftRight_eq_div_pow _ 12, ← Nat.and_two_pow_sub_one_eq_mod _ 4]
    rfl
  have := w.isLt
  have n9 : (0x9000 : Word).toNat = 36864 := rfl
  omega

/-- The opcode of a word in format RdK8. -/
theorem rdK8_opcode (op : BitVec 4) (d : RegNum) (K : Byte) : (wordRdK8 op d K).toNat / 4096 = op.toNat := by
  unfold wordRdK8
  rw [toNat_append_eq_add (n := 4 + 4 + 4), toNat_append_eq_add (n := 4 + 4), toNat_append_eq_add]
  have := (K.extractLsb' 4 4).isLt
  have := (BitVec.ofNat 4 (d.val - 16)).isLt
  have := (K.extractLsb' 0 4).isLt
  omega

theorem movw (d r : RegNum) : Statement (.movw d r) :=
  oneWord rfl rfl (by revert d r; decide +kernel)

theorem add (d r : RegNum) : Statement (.add d r) := oneWord rfl rfl (rdRr_notLds d r).1

theorem and (d r : RegNum) : Statement (.and d r) := oneWord rfl rfl (rdRr_notLds d r).2.1

theorem mov (d r : RegNum) : Statement (.mov d r) := oneWord rfl rfl (rdRr_notLds d r).2.2

theorem andi (d : RegNum) (K : Byte) : Statement (.andi d K) :=
  oneWord rfl rfl fun h => absurd (lds_opcode_bits h) (by rw [rdK8_opcode]; decide)

theorem ldi (d : RegNum) (K : Byte) : Statement (.ldi d K) :=
  oneWord rfl rfl fun h => absurd (lds_opcode_bits h) (by rw [rdK8_opcode]; decide)

theorem adiw (d : RegNum) (K : BitVec 6) : Statement (.adiw d K) :=
  oneWord rfl rfl (by revert d K; decide +kernel)

theorem lds (d : RegNum) (k : Word) : Statement (.lds d k) := by
  have h : ∀ d : RegNum, wordRd 0b1001000#7 d 0b0000#4 &&& 0xFE0F = 0x9000 := by decide
  exact ⟨rfl, fun x hx => by
    obtain rfl : wordRd 0b1001000#7 d 0b0000#4 = x := by simpa [encodeWords] using hx
    simpa [Instr.words] using h d⟩

theorem ldZInc (d : RegNum) : Statement (.ldZInc d) := oneWord rfl rfl (by revert d; decide)

theorem ldZDec (d : RegNum) : Statement (.ldZDec d) := oneWord rfl rfl (by revert d; decide)

theorem lsr (d : RegNum) : Statement (.lsr d) := oneWord rfl rfl (by revert d; decide)

theorem ldZ (d : RegNum) : Statement (.ldZ d) := oneWord rfl rfl (by revert d; decide)

theorem lddZ (d : RegNum) (q : BitVec 6) : Statement (.lddZ d q) :=
  oneWord rfl rfl (by revert d q; decide +kernel)

end Sys2Proof.Laws.Length
end

