-- ==== Sys2Proof/Laws/Safety.lean ====
section
/-! SUPPORT. The terms of Safety.lean: a byte that data space reads as is what a read gives, and more fuel finds the same
end of a run. -/
namespace Sys2Proof.Safety

open Sys2Proof.Machine

/-- SREG's byte is the one whose bits 7 to 0 are I T H S V N Z C (10_state.md R28). -/
theorem eq_toByte_iff (f : Flags) (v : Byte) :
    v = f.toByte ↔ v[7] = f.i ∧ v[6] = f.t ∧ v[5] = f.h ∧ v[4] = f.s ∧ v[3] = f.v ∧ v[2] = f.n ∧ v[1] = f.z ∧
      v[0] = f.c := by
  obtain ⟨i, t, h, s, v', n, z, c⟩ := f
  constructor
  · rintro rfl
    revert i t h s v' n z c
    decide
  · rintro ⟨rfl, rfl, rfl, rfl, rfl, rfl, rfl, rfl⟩
    revert v
    decide

/-- RAMPD read as a byte is RAMPD as a number: RAMPD_BITS is no obstacle, a byte being held. -/
theorem rampdVal_lt (s : State) : s.rampdVal < 256 := Nat.lt_of_le_of_lt (Nat.mod_le _ _) s.rampd.isLt

/-- The byte DataReads names is the byte a read of data space gives. -/
theorem memRead_of_dataReads {s : State} {a : Nat} {v : Byte} (h : DataReads s a v) :
    s.memRead a = .ok (v, { s with draws := s.draws + drawsOf s a }) := by
  unfold DataReads at h
  unfold State.memRead drawsOf
  split at h
  · next hc => simp [hc, h]
  · next hc => simp [hc, (eq_toByte_iff s.flags v).2 h]
  · next hc => simp [hc, ← h]
  · next hc => simp [hc, h]
  · next hc => simp [hc, h]
  · exact h.elim

/-- More fuel finds the same end of a run. -/
theorem runToEnd_mono {n : Nat} : ∀ {m : Nat} {s t : State}, runToEnd n s = some t → n ≤ m → runToEnd m s = some t := by
  induction n with
  | zero =>
    intro m s t h _
    simp only [runToEnd] at h
    split at h
    · next he => cases m <;> simpa [runToEnd, he] using h
    · cases h
  | succ n ih =>
    intro m s t h hm
    obtain ⟨m, rfl⟩ : ∃ k, m = k + 1 := ⟨m - 1, by omega⟩
    unfold runToEnd at h ⊢
    split at h
    · next he => rw [if_pos he]; exact h
    · next he =>
      rw [if_neg he]
      split at h
      · exact ih h (by omega)
      · cases h
      · cases h

end Sys2Proof.Safety
end

