-- ==== Sys2Proof/Tests/Slice0.lean ====
section
/-! SUPPORT. Tests. Expected results are those of spec/95_test_vectors.md and of the rules' worked examples; the source of
each stands in its comment. The theorems named witness_ show states and operands that meet the hypotheses of the
statement they name. -/
namespace Sys2Proof.Tests

open Sys2Proof.Machine Sys2Proof.Safety

/-! ### Helpers -/

/-- The launch state with words placed from word address 0. -/
def prog (ws : List Word) : State := State.reset.loadImage 0 (ws.flatMap bytesOfWord)

/-- A state with registers set. -/
def withRegs (s : State) (rs : List (RegNum × Byte)) : State := rs.foldl (fun s r => s.setReg r.1 r.2) s

/-- A state whose data memory holds some bytes. -/
def withRam (s : State) (bs : List (Nat × Byte)) : State := bs.foldl (fun s b => s.placeByte b.1 b.2) s

/-- A state on a device whose data space has a Ram byte at every address but the registers and SREG. -/
def wideRam (s : State) : State :=
  { s with cfg := { s.cfg with dsmap := [⟨0, 0x1F, .regFile 0⟩, ⟨0x5F, 0x5F, .sreg⟩, ⟨0x60, 0xFFFFFF, .ram⟩] } }

/-- A value of the next state, if there is one. -/
def got {α : Type} (o : Host.Outcome State Fault Refusal) (f : State → α) : Option α :=
  match o with
  | .next t => some (f t)
  | .fault _ => none
  | .refused _ => none

/-- The refusal, if there is one. -/
def why (o : Host.Outcome State Fault Refusal) : Option Refusal :=
  match o with
  | .next _ => none
  | .fault _ => none
  | .refused r => some r

/-- H S V N Z C, the order of 95_test_vectors.md. -/
def hsvnzc (t : State) : List Bool := [t.flags.h, t.flags.s, t.flags.v, t.flags.n, t.flags.z, t.flags.c]

/-- S V N Z C, with H and C set before, so that a flag an instruction must leave is seen to stay. -/
def marked (s : State) : State := s.setFlags ⟨true, true, true, false, false, false, false, true⟩

/-! ### WellFormed refuses an ill-formed term for each of its checks -/

theorem test_wf_movw_odd_d : (Instr.movw 1 0).wellFormed = false := by decide
theorem test_wf_movw_odd_r : (Instr.movw 0 31).wellFormed = false := by decide
theorem test_wf_andi_low_register : (Instr.andi 15 0).wellFormed = false := by decide
theorem test_wf_ldi_low_register : (Instr.ldi 0 1).wellFormed = false := by decide
theorem test_wf_adiw_lower_pair : (Instr.adiw 22 1).wellFormed = false := by decide
theorem test_wf_adiw_odd : (Instr.adiw 25 1).wellFormed = false := by decide
theorem test_wf_lddZ_zero : (Instr.lddZ 3 0).wellFormed = false := by decide

/-! ### Decoding words written out from their boxes (30_encoding.md §5; 95_test_vectors.md §2) -/

theorem test_decode_movw : decodeWord true 0b0000000110000000 0 = some (.movw 16 0) := by decide
theorem test_decode_add : decodeWord true 0b0000111100000001 0 = some (.add 16 17) := by decide
theorem test_decode_and : decodeWord true 0b0010001000100000 0 = some (.and 2 16) := by decide
theorem test_decode_mov : decodeWord true 0b0010111000000000 0 = some (.mov 0 16) := by decide
theorem test_decode_andi : decodeWord true 0b0111101000010101 0 = some (.andi 17 0xA5) := by decide
theorem test_decode_ldi : decodeWord true 0b1110111111100000 0 = some (.ldi 30 0xF0) := by decide
theorem test_decode_adiw : decodeWord true 0b1001011010110000 0 = some (.adiw 30 0x20) := by decide
theorem test_decode_lds :
    decode true [0x20, 0x90, 0x00, 0xFF, 0x77] = .ok (.lds 2 0xFF00, [0x77]) := by decide
theorem test_decode_ldZInc : decodeWord true 0b1001000000000001 0 = some (.ldZInc 0) := by decide
theorem test_decode_ldZDec : decodeWord true 0b1001000000110010 0 = some (.ldZDec 3) := by decide
theorem test_decode_lsr : decodeWord true 0b1001010111110110 0 = some (.lsr 31) := by decide
theorem test_decode_ldZ : decodeWord true 0b1000000000010000 0 = some (.ldZ 1) := by decide
theorem test_decode_lddZ : decodeWord true 0b1010110111110111 0 = some (.lddZ 31 63) := by decide
/-- q's middle bits alone (95_test_vectors.md: `ldd r5,Z+8`). -/
theorem test_decode_lddZ_8 : decodeWord true 0x8450 0 = some (.lddZ 5 8) := by decide
theorem test_decode_refuses :
    ([0x0000, 0x0800, 0x2400, 0x9003, 0x9403, 0x9700, 0x8008, 0x8200].map fun w => decodeWord true w 0) =
      List.replicate 8 none := by decide
theorem test_decode_truncated : decode true [0x20, 0x90, 0x00] = .error .truncated := by decide
theorem test_encode_lds : encode (.lds 16 0x0060) = [0x00, 0x91, 0x60, 0x00] := by decide
theorem test_encode_movw : encodeWords (.movw 30 24) = [0x01FC] := by decide
theorem test_decodeTableWord_two_words : decodeTableWord 32 0xFF009020 = some (.lds 2 0xFF00) := by decide

/-! ### One step of each instruction (95_test_vectors.md §3) -/

/-- 0x7F + 0x01: signed overflow, positive to negative. -/
theorem test_add_overflow :
    got (step (withRegs (prog [0x0F01]) [(16, 0x7F), (17, 0x01)])) (fun t => (t.reg 16, hsvnzc t, t.pc)) =
      some (0x80, [true, false, true, true, false, false], 1) := by decide
/-- E1: `add r28,r28` on 0x90, the source also the destination. -/
theorem test_add_itself :
    got (step (withRegs (prog [0x0FCC]) [(28, 0x90)])) (fun t => (t.reg 28, hsvnzc t)) =
      some (0x20, [false, true, true, false, false, true]) := by decide
/-- E2: Z = 0xFFC1, `adiw ZH:ZL,63`: wrap exactly to zero; H not written. -/
theorem test_adiw_wraps :
    got (step (marked (withRegs (prog [0x96FF]) [(31, 0xFF), (30, 0xC1)]))) (fun t => (t.z, hsvnzc t)) =
      some (0, [true, false, false, false, true, true]) := by decide
/-- 0x7FFF + 1: signed overflow. -/
theorem test_adiw_overflow :
    got (step (withRegs (prog [0x9601]) [(25, 0x7F), (24, 0xFF)])) (fun t => (t.reg 25, t.reg 24, hsvnzc t)) =
      some (0x80, 0x00, [false, false, true, true, false, false]) := by decide
/-- 0xF0 and 0x0F: disjoint masks; H and C kept. -/
theorem test_and_zero :
    got (step (marked (withRegs (prog [0x2023]) [(2, 0xF0), (3, 0x0F)]))) (fun t => (t.reg 2, hsvnzc t)) =
      some (0, [true, false, false, false, true, true]) := by decide
/-- R111's example: 0xF3 and K = 0xA5. -/
theorem test_andi_negative :
    got (step (marked (withRegs (prog [0x7A15]) [(17, 0xF3)]))) (fun t => (t.reg 17, hsvnzc t)) =
      some (0xA1, [true, true, false, true, false, true]) := by decide
/-- `lsr` of 0x81: the sign bit is not kept. -/
theorem test_lsr_sign_bit :
    got (step (marked (withRegs (prog [0x9406]) [(0, 0x81)]))) (fun t => (t.reg 0, hsvnzc t)) =
      some (0x40, [true, true, true, false, false, true]) := by decide
/-- `lsr` of 0x01: Z and C together. -/
theorem test_lsr_zero_and_carry :
    got (step (withRegs (prog [0x9406]) [(0, 0x01)])) (fun t => (t.reg 0, hsvnzc t)) =
      some (0, [false, true, true, false, true, true]) := by decide
/-- `mov r16,r0`: r0 kept, no flag written. -/
theorem test_mov :
    got (step (marked (withRegs (prog [0x2D00]) [(0, 0x3C)]))) (fun t => (t.reg 16, t.reg 0, hsvnzc t)) =
      some (0x3C, 0x3C, [true, false, false, false, false, true]) := by decide
/-- `movw r17:r16,r1:r0`: low to low, high to high. -/
theorem test_movw :
    got (step (withRegs (prog [0x0180]) [(1, 0x12), (0, 0x34)])) (fun t => (t.reg 17, t.reg 16, t.pc)) =
      some (0x12, 0x34, 1) := by decide
/-- `ldi r16,0x00`: Z not set. -/
theorem test_ldi_sets_no_flag :
    got (step (withRegs (prog [0xE000]) [(16, 0xFF)])) (fun t => (t.reg 16, t.flags.z)) = some (0, false) := by
  decide
/-- `lds r2,0x0100`: two words. -/
theorem test_lds_ram :
    got (step (withRam (prog [0x9020, 0x0100]) [(0x100, 0x5A)])) (fun t => (t.reg 2, t.pc)) = some (0x5A, 2) := by
  decide
/-- `lds r5,0x005F` with I T H S V N Z C = 1 0 1 0 1 0 1 0: SREG as a byte. -/
theorem witness_lds_sreg :
    got (step ((prog [0x9050, 0x005F]).setFlags ⟨true, false, true, false, true, false, true, false⟩))
      (fun t => t.reg 5) = some 0xAA := by decide
/-- `lds r2,0xFF00` with RAMPD_BITS = 8, RAMPD = 1: reads 0x01FF00. -/
theorem test_lds_segment :
    got (execLds 2 0xFF00
      (withRam (wideRam { prog [] with rampd := 1, cfg := { State.reset.cfg with rampdBits := 8 } })
        [(0x1FF00, 0x66)])) (fun t => t.reg 2) = some 0x66 := by decide
/-- `lds r6,0x0030`, class Io: a draw, and the next read will be another. -/
theorem witness_lds_io_draws :
    got (step (prog [0x9060, 0x0030])) (fun t => (t.reg 6, t.draws)) = some (Config.ioDraw 0, 1) := rfl
/-- `ld r1,Z` at 0x61. -/
theorem test_ldZ :
    got (step (withRam (withRegs (prog [0x8010]) [(30, 0x61)]) [(0x61, 0x11)])) (fun t => (t.reg 1, t.z, t.pc)) =
      some (0x11, 0x61, 1) := by decide
/-- `ld r30,Z` at 0x60: Z becomes 0x0010. -/
theorem test_ldZ_into_zl :
    got (step (withRam (withRegs (prog [0x81E0]) [(30, 0x60)]) [(0x60, 0x10)])) (fun t => t.z) = some 0x10 := by
  decide
/-- `ld r0,Z+` at 0xFFFF: Z wraps to 0. -/
theorem test_ldZInc_wraps :
    got (step (withRam (wideRam (withRegs (prog [0x9001]) [(30, 0xFF), (31, 0xFF)])) [(0xFFFF, 0x77)]))
      (fun t => (t.reg 0, t.z)) = some (0x77, 0) := by decide
/-- `ld r30,Z+` is refused. -/
theorem test_ldZInc_into_z_refused : why (step (prog [0x91E1])) = some .ldPostincIntoZ := by decide
/-- `ld r3,-Z` from 0x63 reads 0x62. -/
theorem test_ldZDec :
    got (step (withRam (withRegs (prog [0x9032]) [(30, 0x63)]) [(0x62, 0x12), (0x63, 0x13)]))
      (fun t => (t.reg 3, t.z)) = some (0x12, 0x62) := by decide
/-- `ld r31,-Z` is refused. -/
theorem test_ldZDec_into_z_refused : why (step (prog [0x91F2])) = some .ldPredecIntoZ := by decide
/-- `ldd r4,Z+2` from 0x62 reads 0x64, Z unchanged. -/
theorem test_lddZ :
    got (step (withRam (withRegs (prog [0x8042]) [(30, 0x62)]) [(0x64, 0x14)])) (fun t => (t.reg 4, t.z)) =
      some (0x14, 0x62) := by decide
/-- `ldd r6,Z+63` from 0xFFF0: the address wraps to 0x002F, an Io address: a draw. -/
theorem test_lddZ_wraps :
    got (step (withRegs (prog [0xAC67]) [(30, 0xF0), (31, 0xFF)])) (fun t => (t.reg 6, t.z)) =
      some (Config.ioDraw 0, 0xFFF0) := rfl
/-- `lds r7,0x0900`, Unmapped, is refused. -/
theorem witness_refusal_unmapped_lds : why (step (prog [0x9070, 0x0900])) = some .unmappedDataAddress := by decide

/-! ### The assembler's text (source examples, 30_encoding.md §7) -/

theorem test_asm_prints_lds : Asm.print (.lds 2 0xFF00) = "lds r2,0xFF00".toList := by decide
theorem test_asm_prints_pair : Asm.print (.movw 16 0) = "movw r17:r16,r1:r0".toList := by decide
theorem test_asm_reads_pointer : Asm.read "adiw ZH:ZL,63 ; Add 63".toList = some (.adiw 30 63) := by decide
theorem test_asm_reads_label : Asm.read "check: LDI r30,0x60".toList = some (.ldi 30 0x60) := by decide
theorem test_asm_refuses_low_register : Asm.read "ldi r2,1".toList = none := by decide

/-! ### Witnesses -/

/-- One state on an AVRrc device. -/
def avrrcState : State := { State.reset with cfg := Config.forCore .avrrc }

/-- A state with one word of program memory: the given word. -/
def oneWordFlash (w : Word) : State := { prog [w] with cfg := { State.reset.cfg with flashWords := 1, endAddr := 1 } }

theorem witness_StepRunsDecodedInstruction :
    (prog [0x9020, 0x0100]).cfg.core ≠ .avrrc ∧ (prog [0x9020, 0x0100]).pc < (prog [0x9020, 0x0100]).cfg.flashWords ∧
    decodeWord (prog [0x9020, 0x0100]).cfg.admitGk ((prog [0x9020, 0x0100]).pmWord 0)
      ((prog [0x9020, 0x0100]).pmWord 1) = some (.lds 2 0x100) ∧
    isAvailable (prog [0x9020, 0x0100]).cfg (.lds 2 0x100) = true ∧
    1 < (prog [0x9020, 0x0100]).cfg.flashWords := by decide

/-- Each clause of StepRefusesByFirstFailedCheck, reached. -/
theorem witness_refusal_core : why (step avrrcState) = some .coreNotModelled := by decide
theorem witness_refusal_pc : why (step ({ oneWordFlash 0 with pc := 1 } : State)) = some .pcOutOfRange := by decide
theorem witness_refusal_opcode : why (step (prog [0x0000])) = some .opcodeNotInSpec := by decide
theorem witness_refusal_device :
    why (step { prog [0x0100] with cfg := { State.reset.cfg with hasMovw := false } }) =
      some .instructionNotOnThisDevice := by decide
theorem witness_refusal_second_word : why (step (oneWordFlash 0x9020)) = some .pcOutOfRange := by decide
theorem witness_refusal_unmapped_ldZ : why (step (withRegs (prog [0x8010]) [(31, 0x09)])) = some .unmappedDataAddress := by
  decide
theorem witness_refusal_unmapped_ldZInc :
    why (step (withRegs (prog [0x9001]) [(31, 0x09)])) = some .unmappedDataAddress := by decide
theorem witness_refusal_unmapped_ldZDec : why (step (prog [0x9032])) = some .unmappedDataAddress := by decide
theorem witness_refusal_unmapped_lddZ :
    why (step (withRegs (prog [0x8042]) [(31, 0x08), (30, 0xFE)])) = some .unmappedDataAddress := by decide

theorem witness_DecodeOfEncodeIsTheInstruction : (Instr.lddZ 31 63).wellFormed = true := by decide
theorem witness_EncodeOfDecodedIsTheWords : decodeWord false 0x96FF 7 = some (.adiw 30 63) := by decide
theorem witness_OpcodeRowsAreDisjoint :
    ∃ p q : OpRow, opcodeTable[11]? = some p ∧ opcodeTable[12]? = some q ∧ p.fits 0x8000 = true ∧
      q.fits 0x8000 = true := ⟨_, _, rfl, rfl, by decide, by decide⟩
theorem witness_LengthIsToldByTheFirstWord : decodeWord true 0x9000 0x0100 = some (.lds 0 0x0100) := by decide
theorem witness_AdmitGk :
    decodeWord false 0x9000 5 = some (.lds 0 5) ∧ decodeWord true 0x9001 5 = some (.ldZInc 0) := by decide
theorem witness_PlacedInstructionRunsNext :
    State.reset.pm.wf = true ∧ State.reset.cfg.core ≠ .avrrc ∧ State.reset.cfg.admitGk = true ∧
    State.reset.pc + 1 < State.reset.cfg.flashWords ∧ isAvailable State.reset.cfg (.lds 2 0xFF00) = true ∧
    decodeTableWord 32 0xFF009020 = some (.lds 2 0xFF00) := by decide
theorem witness_ImageWordsAreLowByteFirst :
    State.reset.pm.wf = true ∧ (State.reset.loadImage 0 [0x01, 0xE0]).pmWord 0 = 0xE001 := by decide

theorem witness_Adiw_operands : ∀ d ∈ ([24, 30] : List RegNum), (Instr.adiw d 63).wellFormed = true := by decide
theorem witness_Andi_Ldi_operands : 16 ≤ (16 : RegNum).val ∧ 16 ≤ (31 : RegNum).val := by decide
theorem witness_Movw_operands : (30 : RegNum).val % 2 = 0 ∧ (0 : RegNum).val % 2 = 0 := by decide
theorem witness_AddFlags : ∃ t, exec (.add 0 0) State.reset = .next t := ⟨_, rfl⟩
theorem witness_AdiwFlags : ∃ t, exec (.adiw 24 1) State.reset = .next t := ⟨_, rfl⟩
theorem witness_LogicLaws : ∃ t, exec (.and 0 31) State.reset = .next t := ⟨_, rfl⟩
theorem witness_LsrHalves : ∃ t, exec (.lsr 31) State.reset = .next t := ⟨_, rfl⟩

/-- The addresses where the classes of the classic map meet. -/
theorem witness_classes :
    ([0x1F, 0x20, 0x5E, 0x5F, 0x60, 0x8FF, 0x900].map State.reset.cfg.classify) =
      [.reg 31, .io, .io, .sreg, .ram, .ram, .unmapped] := by decide
/-- A device with an address of class Rampd. -/
def rampdState : State :=
  { State.reset with rampd := 0xFF, cfg := { State.reset.cfg with rampdBits := 3, dsmap := [⟨0x58, 0x58, .rampd⟩] } }
theorem witness_class_rampd : rampdState.cfg.classify 0x58 = .rampd ∧ got (execLdZ 0 (withRegs rampdState [(30, 0x58)]))
    (fun t => t.reg 0) = some 7 := by decide
theorem witness_ClassicMap : State.reset.cfg.dsmap = classicMap 0x08FF ∧ 0x60 ≤ 0x08FF := by decide
theorem witness_reads_ram : DataReads (withRam State.reset [(0x8FF, 9)]) 0x8FF 9 := rfl
theorem witness_reads_reg : DataReads (withRegs State.reset [(31, 8)]) 0x1F 8 := rfl
theorem witness_reads_sreg : DataReads (marked State.reset) 0x5F 0xE1 := ⟨rfl, rfl, rfl, rfl, rfl, rfl, rfl, rfl⟩
theorem witness_reads_rampd : DataReads rampdState 0x58 7 := rfl
theorem witness_reads_io : DataReads State.reset 0x20 (Config.ioDraw 0) := rfl

/-- Z with no extension register, at an address of each kind of clause: mapped, and Unmapped after a decrement. -/
theorem witness_LdZ_hypotheses :
    State.reset.cfg.rampzBits = 0 ∧ State.reset.cfg.classify 0 = .reg 0 ∧ State.reset.cfg.classify 65535 = .unmapped := by
  decide
/-- Z = 0 before `ld r3,-Z`, Ram at 0xFFFF: the decrement wraps; and Z = 0xFFFF before `ld r0,Z+`. -/
theorem witness_LdZDec_wraps :
    DataReads (withRam (wideRam State.reset) [(0xFFFF, 0x77)]) 65535 0x77 ∧
    (wideRam State.reset).cfg.classify 65535 ≠ .reg 30 ∧ (wideRam State.reset).cfg.classify 65535 ≠ .reg 31 ∧
    (wideRam State.reset).cfg.rampzBits = 0 := ⟨rfl, by decide, by decide, rfl⟩
theorem witness_LdZDecReadsItsDecrementedZ :
    got (execLdZDec 0 (withRegs State.reset [(30, 31)])) (fun t => (t.reg 0, t.z)) = some (30, 30) ∧
    got (execLdZDec 0 (withRegs State.reset [(30, 32)])) (fun t => (t.reg 0, t.z)) = some (0, 31) := by decide
theorem witness_LdWithExtensionRegister :
    why (exec (.ldZ 0) { State.reset with cfg := { State.reset.cfg with rampzBits := 8 } }) = some .rampzNotModelled := by
  decide
theorem witness_LdsAndLdReadAlike :
    State.reset.cfg.rampzBits = 0 ∧ State.reset.rampdVal = 0 ∧ ∃ t, exec (.ldZ 5) State.reset = .next t :=
  ⟨rfl, rfl, _, rfl⟩
theorem witness_NoInstructionTakesAFlag :
    (∃ t, exec (.ldZ 5) State.reset = .next t) ∧ State.reset.cfg.classify State.reset.z.toNat ≠ .sreg :=
  ⟨⟨_, rfl⟩, by decide⟩
theorem witness_ResultDoesNotDependOnCore : ∃ t, exec (.ldZInc 5) State.reset = .next t := ⟨_, rfl⟩
theorem witness_OnlyLoads : readsDataSpace (.movw 0 2) = false := by decide
theorem witness_StepAddsTheLength : ∃ t, step (prog [0x9020, 0x0100]) = .next t := ⟨_, rfl⟩
theorem witness_StepKeepsTheInvariant : MachineInv (oneWordFlash 0xE001) ∧ ∃ t, step (oneWordFlash 0xE001) = .next t :=
  ⟨⟨by decide, by decide, by decide, by decide, by decide, fun _ h => nomatch h⟩, _, rfl⟩
theorem witness_Launch : Launch State.reset ∧ State.reset.cfg.classify 0x60 = .ram :=
  ⟨⟨⟨by decide, by decide, by decide, by decide, by decide, fun _ h => nomatch h⟩, rfl⟩, by decide⟩
theorem witness_Runs : ∃ t, Host.Core.run Sys2Proof.core 1 (oneWordFlash 0xE001) = .next t := ⟨_, rfl⟩
theorem witness_RunsEnd : (runToEnd 1 (oneWordFlash 0xE001)).map (fun t => t.pc) = some 1 ∧
    ({ oneWordFlash 0 with pc := 2 } : State).cfg.endAddr < ({ oneWordFlash 0 with pc := 2 } : State).pc := by decide
theorem witness_Assembler : (Instr.adiw 30 63).wellFormed = true ∧ Asm.read (Asm.print (.adiw 30 63)) = some (.adiw 30 63) := by
  decide

end Sys2Proof.Tests
end

section
/-! The reading rule of data space, one equation for each class of address (20_memory.md R44), and the obligation
about MemRead. -/
namespace Sys2Proof.Machine

section
variable {s : State} {a : Nat}

theorem State.memRead_reg {i : RegNum} (h : s.cfg.classify a = .reg i) : s.memRead a = .ok (s.reg i, s) := by
  simp [State.memRead, h]

theorem State.memRead_sreg (h : s.cfg.classify a = .sreg) : s.memRead a = .ok (s.flags.toByte, s) := by
  simp [State.memRead, h]

theorem State.memRead_rampd (h : s.cfg.classify a = .rampd) :
    s.memRead a = .ok (BitVec.ofNat 8 s.rampdVal, s) := by
  simp [State.memRead, h]

theorem State.memRead_ram (h : s.cfg.classify a = .ram) : s.memRead a = .ok (s.ram.read a, s) := by
  simp [State.memRead, h]

theorem State.memRead_io (h : s.cfg.classify a = .io) :
    s.memRead a = .ok (Config.ioDraw s.draws, { s with draws := s.draws + 1 }) := by
  simp [State.memRead, h]

end

/-- RAMPD fits the byte it is read as, whatever RAMPD_BITS is (10_state.md R29). -/
theorem State.toNat_ofNat_rampdVal (s : State) : (BitVec.ofNat 8 s.rampdVal).toNat = s.rampdVal := by
  rw [BitVec.toNat_ofNat, Nat.mod_eq_of_lt (Safety.rampdVal_lt s)]

end Sys2Proof.Machine

namespace Sys2Proof.Safety

open Sys2Proof.Machine

/-- Counting a draw stores nothing (20_memory.md R49). -/
theorem storesNothing_withDraws (s : State) (n : Nat) : StoresNothing s { s with draws := n } :=
  ⟨fun _ => rfl, fun _ => rfl, fun _ => rfl, rfl, rfl⟩

/-- Settles O24, class by class from the reading rule. -/
theorem memReadGoesByClass : Obligations.MemReadGoesByClass := by
  intro s a
  refine ⟨?reg, ?sreg, ?rampd, ?ram, ?io, ?unmapped⟩
  case reg => exact fun _ h => State.memRead_reg h
  case sreg => exact fun h => ⟨_, State.memRead_sreg h, (eq_toByte_iff s.flags _).1 rfl⟩
  case rampd => exact fun h => ⟨_, State.memRead_rampd h, s.toNat_ofNat_rampdVal⟩
  case ram => exact State.memRead_ram
  case io => exact fun h => ⟨_, _, State.memRead_io h, rfl, fun _ => rfl, rfl, rfl, storesNothing_withDraws s _⟩
  case unmapped => exact State.memRead_unmapped

end Sys2Proof.Safety
end

section
/-! Decoding by rows, for any admitted word (30_encoding.md R73): the row whose fixed bits a word has is the row decode
picks, and what the box of ADD, AND and MOV (R63) holds. -/
namespace Sys2Proof

/-- Two rows that match one word agree where both fix a bit. -/
theorem OpRow.fits_agree {p q : OpRow} {w : Word} (hp : p.fits w = true) (hq : q.fits w = true) :
    p.pattern &&& q.mask = q.pattern &&& p.mask := by
  rw [← beq_iff_eq.1 hp, ← beq_iff_eq.1 hq, BitVec.and_assoc, BitVec.and_assoc, BitVec.and_comm p.mask]

/-- Every row but the last, LDD, differs from each row before it in a bit that both fix. -/
theorem opcodeTable_rows_differ : ∀ (n : Fin opcodeTable.length), n.val < 12 → ∀ m < n,
    opcodeTable[m].pattern &&& opcodeTable[n].mask ≠ opcodeTable[n].pattern &&& opcodeTable[m].mask := by
  decide

/-- An admitted row before LDD whose fixed bits are the word's is the row that builds the instruction. -/
theorem decodeWord_of_fits {gk : Bool} {w : Word} (n : Fin opcodeTable.length) (hn : n.val < 12)
    (hgk : (gk || !opcodeTable[n].gk) = true) (hw : opcodeTable[n].fits w = true) (k : Word) :
    decodeWord gk w k = some (opcodeTable[n].build w k) := by
  have hrow : findRow gk w = some opcodeTable[n] := by
    refine List.find?_eq_some_iff_getElem.2 ⟨by rw [hgk, hw]; rfl, n, n.isLt, rfl, fun m hm => ?_⟩
    have hmw : opcodeTable[m].fits w ≠ true := fun h =>
      opcodeTable_rows_differ n hn ⟨m, hm.trans n.isLt⟩ hm (OpRow.fits_agree h hw)
    simp [hmw]
  simp [decodeWord, hrow]

section
variable (op : BitVec 6) (d r : RegNum)

theorem regBits_toNat : (regBits d).toNat = d.val := Nat.mod_eq_of_lt d.isLt

/-- The box RdRr as a number (R63). -/
theorem wordRdRr_toNat :
    (wordRdRr op d r).toNat = op.toNat * 1024 + (r.val / 16 * 512 + d.val * 16 + r.val % 16) := by
  rw [wordRdRr, toNat_append_eq_add (n := 6 + 1 + 5), toNat_append_eq_add (n := 6 + 1), toNat_append_eq_add,
    BitVec.extractLsb'_toNat, BitVec.extractLsb'_toNat, regBits_toNat, regBits_toNat, Nat.shiftRight_eq_div_pow]
  omega

/-- The box RdRr by the arithmetic of R79. -/
theorem ofNat_eq_wordRdRr :
    BitVec.ofNat 16 (op.toNat <<< 10 ||| (r.val &&& 0x10) <<< 5 ||| d.val <<< 4 ||| (r.val &&& 0x0F)) =
      wordRdRr op d r := by
  have hfields : ∀ d r : RegNum, (r.val &&& 0x10) <<< 5 ||| (d.val <<< 4 ||| (r.val &&& 0x0F)) =
      r.val / 16 * 512 + d.val * 16 + r.val % 16 := by decide +kernel
  apply BitVec.eq_of_toNat_eq
  rw [BitVec.toNat_ofNat, Nat.or_assoc, Nat.or_assoc, hfields, ← Nat.shiftLeft_add_eq_or_of_lt (by omega),
    Nat.shiftLeft_eq, wordRdRr_toNat]
  omega

/-- The opcode mask of the box RdRr keeps the opcode and clears the fields. -/
theorem wordRdRr_and_opcodeMask : wordRdRr op d r &&& 0xFC00 = wordRdRr op 0 0 := by
  have hfields : ∀ (x : BitVec 1) (y : BitVec 5) (z : BitVec 4),
      (op ++ x ++ y ++ z) &&& (BitVec.allOnes 6 ++ 0#1 ++ 0#5 ++ 0#4) = op ++ 0#1 ++ 0#5 ++ 0#4 := by
    simp only [BitVec.and_append, BitVec.and_allOnes, BitVec.and_zero, implies_true]
  exact hfields _ _ _

theorem fieldD_wordRdRr : fieldD (wordRdRr op d r) = d := by
  apply Fin.ext
  show ((wordRdRr op d r).extractLsb' 4 5).toNat = d.val
  rw [BitVec.extractLsb'_toNat, wordRdRr_toNat, Nat.shiftRight_eq_div_pow]
  omega

theorem fieldR_wordRdRr : fieldR (wordRdRr op d r) = r := by
  apply Fin.ext
  show ((wordRdRr op d r).extractLsb' 9 1 ++ (wordRdRr op d r).extractLsb' 0 4).toNat = r.val
  rw [toNat_append_eq_add, BitVec.extractLsb'_toNat, BitVec.extractLsb'_toNat, wordRdRr_toNat,
    Nat.shiftRight_eq_div_pow]
  omega

end

end Sys2Proof
end

section
/-! What the obligations on single instructions share: the frame of a completed instruction, and which registers a write
leaves. -/
namespace Sys2Proof.Safety

open Sys2Proof.Machine

/-- No completed instruction stores (20_memory.md R45). -/
theorem storesNothing_of_commonEffect {i : Instr} {s t : State} (h : CommonEffect i s t) : StoresNothing s t :=
  ⟨State.pmWord_congr h.pm, fun a => congrArg (Memory.read · a) h.pm, fun a => congrArg (Memory.read · a) h.ram,
    h.rampd, h.cfg⟩

theorem regsSameExcept_setReg (s : State) (d : RegNum) (v : Byte) : RegsSameExcept [d] s (s.setReg d v) :=
  fun _ hj => State.setReg_reg_ne _ _ _ _ (List.ne_of_not_mem_cons hj)

theorem regsSameExcept_setPair (s : State) (d : RegNum) (w : Word) : RegsSameExcept [d, d + 1] s (s.setPair d w) := by
  intro j hj
  obtain ⟨hlow, hhigh⟩ : j ≠ d ∧ j ≠ d + 1 := by simpa using hj
  rw [State.setPair_reg, if_neg hhigh, if_neg hlow]

end Sys2Proof.Safety
end

section
/-! The obligations about what ADD and ADIW do (40_arithmetic.md R100, R102). -/
namespace Sys2Proof.Machine

open Sys2Proof.Safety

/-! ### ADD -/

section
variable (d r : RegNum) (s : State)

theorem decodeWord_add (gk : Bool) (k : Word) :
    decodeWord gk (BitVec.ofNat 16 (0x0C00 ||| (r.val &&& 0x10) <<< 5 ||| d.val <<< 4 ||| (r.val &&& 0x0F))) k =
      some (.add d r) := by
  have hword := ofNat_eq_wordRdRr 0b000011#6 d r
  have hfits : opcodeTable[1].fits (wordRdRr 0b000011#6 d r) = true :=
    beq_iff_eq.2 (wordRdRr_and_opcodeMask 0b000011#6 d r)
  calc
    _ = decodeWord gk (wordRdRr 0b000011#6 d r) k := congrArg (decodeWord gk · k) hword
    _ = some (.add (fieldD (wordRdRr 0b000011#6 d r)) (fieldR (wordRdRr 0b000011#6 d r))) :=
      decodeWord_of_fits ⟨1, by decide⟩ (by decide) (Bool.or_true gk) hfits k
    _ = some (.add d r) := by rw [fieldD_wordRdRr, fieldR_wordRdRr]

/-- The state ADD leads to. -/
theorem exec_add : exec (.add d r) s =
    .next (((s.setReg d (s.reg d + s.reg r)).setFlags
      (addFlags (s.reg d) (s.reg r) (s.reg d + s.reg r) s.flags)).advance 1) := rfl

end

/-- Settles O12: the word by its format, the result and flags from the state ADD leads to, the rest from what every
instruction leaves. -/
theorem addFollowsItsRule : Obligations.AddFollowsItsRule := by
  intro d r s
  have he := exec_commonEffect (exec_add d r s)
  refine ⟨decodeWord_add d r, fun _ => rfl, _, exec_add d r s, ?result, rfl, he.flagI, he.flagT, he.pc,
    regsSameExcept_setReg s d _, storesNothing_of_commonEffect he, rfl⟩
  case result =>
    simp only [State.advance_reg, State.setFlags_reg, State.setReg_reg_self]
    exact ⟨BitVec.toNat_add _ _, rfl, rfl, rfl, rfl, rfl⟩

/-! ### ADIW -/

/-- The 256 words of ADIW: the fixed bits, and the operands in their fields (30_encoding.md R65, R72). -/
theorem adiwWord_fields : ∀ d ∈ ([24, 26, 28, 30] : List RegNum), ∀ K : BitVec 6, ∀ w : Word,
    w = BitVec.ofNat 16
      (0x9600 ||| (K.toNat &&& 0x30) <<< 2 ||| ((d.val - 24) / 2) <<< 4 ||| (K.toNat &&& 0x0F)) →
    opcodeTable[6].fits w = true ∧ fieldDUpperPair w = d ∧ fieldK6 w = K := by
  simp only [forall_eq]
  decide +kernel

section
variable (d : RegNum) (K : BitVec 6) (s : State) (w : Word)

theorem decodeWord_adiw (hd : d ∈ ([24, 26, 28, 30] : List RegNum)) (gk : Bool) (k : Word) :
    decodeWord gk (BitVec.ofNat 16
      (0x9600 ||| (K.toNat &&& 0x30) <<< 2 ||| ((d.val - 24) / 2) <<< 4 ||| (K.toNat &&& 0x0F))) k =
        some (.adiw d K) := by
  obtain ⟨hfits, hfieldD, hfieldK⟩ := adiwWord_fields d hd K _ rfl
  rw [decodeWord_of_fits ⟨6, by decide⟩ (by decide) (Bool.or_true gk) hfits k]
  exact congrArg some (congrArg₂ Instr.adiw hfieldD hfieldK)

/-- The state ADIW leads to. -/
theorem exec_adiw : exec (.adiw d K) s =
    .next (((s.setPair d (s.pair d + K.setWidth 16)).setFlags
      (adiwFlags (s.pair d) (s.pair d + K.setWidth 16) s.flags)).advance 1) := rfl

/-- The sum of ADIW as a number (R102). -/
theorem pair_add_setWidth_toNat : (s.pair d + K.setWidth 16).toNat =
    ((s.reg (d + 1)).toNat * 256 + (s.reg d).toNat + K.toNat) % 65536 := by
  rw [BitVec.toNat_add, State.pair_toNat, BitVec.toNat_setWidth_of_le (by decide)]

/-- Bit 15 of a pair is bit 7 of its high register. -/
theorem State.pair_bit15 : (s.pair d)[15] = (s.reg (d + 1))[7] :=
  BitVec.getElem_append (x := s.reg (d + 1)) (y := s.reg d) (i := 15) (by decide)

theorem State.setPair_low_toNat : ((s.setPair d w).reg d).toNat = w.toNat % 256 := by
  rw [State.setPair_reg_low, BitVec.extractLsb'_toNat]
  rfl

theorem State.setPair_high_toNat : ((s.setPair d w).reg (d + 1)).toNat = w.toNat / 256 := by
  have := w.isLt
  rw [State.setPair_reg_high, BitVec.extractLsb'_toNat, Nat.shiftRight_eq_div_pow]
  omega

end

/-- Settles O14: the word from the 256 words of ADIW, the result and flags from the state ADIW leads to, its sum read
as a number, the rest from what every instruction leaves. -/
theorem adiwFollowsItsRule : Obligations.AdiwFollowsItsRule := by
  intro d K s hd
  have he := exec_commonEffect (exec_adiw d K s)
  refine ⟨decodeWord_adiw d K hd, fun _ => rfl, _, exec_adiw d K s, ?result, rfl, he.flagI, he.flagT, rfl, he.pc,
    regsSameExcept_setPair s d _, storesNothing_of_commonEffect he, rfl⟩
  case result =>
    simp only [State.advance_reg, State.setFlags_reg, State.advance_flags, State.setFlags_flags,
      State.setPair_low_toNat, State.setPair_high_toNat, ← State.pair_bit15, State.setPair_pair,
      ← pair_add_setWidth_toNat]
    exact ⟨trivial, trivial, rfl, rfl, decide_eq_decide.2 BitVec.toNat_eq, rfl⟩

end Sys2Proof.Machine
end

section
/-! Decoding a row of the formats RdRr and RdK8 (30_encoding.md R63, R64): the words of R79 that have the row's opcode
decode to the row's instruction with the operands they were made from. -/
namespace Sys2Proof

/-- A row of format RdRr decodes its words to its instruction. -/
theorem decodeWord_rdRr {name : String} {op : BitVec 6} {mk : RegNum → RegNum → Instr}
    (n : Fin opcodeTable.length) (hn : n.val < 12)
    (hrow : opcodeTable[n] = ⟨name, 0xFC00, wordRdRr op 0 0, 1, false, fun w _ => mk (fieldD w) (fieldR w)⟩)
    (d r : RegNum) (gk : Bool) (k : Word) :
    decodeWord gk
      (BitVec.ofNat 16 (op.toNat <<< 10 ||| (r.val &&& 0x10) <<< 5 ||| d.val <<< 4 ||| (r.val &&& 0x0F))) k =
        some (mk d r) := by
  have hfits : opcodeTable[n].fits (wordRdRr op d r) = true := by
    rw [hrow]
    exact beq_iff_eq.2 (wordRdRr_and_opcodeMask op d r)
  rw [ofNat_eq_wordRdRr, decodeWord_of_fits n hn (by simp [hrow]) hfits, hrow]
  simp only [fieldD_wordRdRr, fieldR_wordRdRr]

section
variable (op : BitVec 4) (d : RegNum) (K : Byte)

/-- The box RdK8 as a number (R64). -/
theorem wordRdK8_toNat : (wordRdK8 op d K).toNat =
    op.toNat * 4096 + (K.toNat / 16 * 256 + (d.val - 16) % 16 * 16 + K.toNat % 16) := by
  rw [wordRdK8, toNat_append_eq_add (n := 4 + 4 + 4), toNat_append_eq_add (n := 4 + 4), toNat_append_eq_add,
    BitVec.extractLsb'_toNat, BitVec.extractLsb'_toNat, BitVec.toNat_ofNat, Nat.shiftRight_eq_div_pow]
  omega

/-- The box RdK8 by the arithmetic of R79. -/
theorem ofNat_eq_wordRdK8 :
    BitVec.ofNat 16 (op.toNat <<< 12 ||| (K.toNat &&& 0xF0) <<< 4 ||| (d.val - 16) <<< 4 ||| (K.toNat &&& 0x0F)) =
      wordRdK8 op d K := by
  have hhigh : ∀ K : Byte, (K.toNat &&& 0xF0) <<< 4 = (K.extractLsb' 4 4).toNat <<< 8 := by decide
  have hlow : ∀ K : Byte, K.toNat &&& 0x0F = (K.extractLsb' 0 4).toNat := by decide
  have hd : (BitVec.ofNat 4 (d.val - 16)).toNat = d.val - 16 := Nat.mod_eq_of_lt (by omega)
  have hword : op.toNat <<< 12 ||| (K.toNat &&& 0xF0) <<< 4 ||| (d.val - 16) <<< 4 ||| (K.toNat &&& 0x0F) =
      (wordRdK8 op d K).toNat := by
    rw [hhigh, hlow, ← hd]
    simp only [wordRdK8, BitVec.toNat_append, Nat.shiftLeft_or_distrib, ← Nat.shiftLeft_add]
  rw [hword, BitVec.ofNat_toNat, BitVec.setWidth_eq]

/-- The opcode mask of the box RdK8 keeps the opcode and clears the fields. -/
theorem wordRdK8_and_opcodeMask : wordRdK8 op d K &&& 0xF000 = wordRdK8 op 16 0 := by
  have hfields : ∀ x y z : BitVec 4,
      (op ++ x ++ y ++ z) &&& (BitVec.allOnes 4 ++ 0#4 ++ 0#4 ++ 0#4) = op ++ 0#4 ++ 0#4 ++ 0#4 := by
    simp only [BitVec.and_append, BitVec.and_allOnes, BitVec.and_zero, implies_true]
  exact hfields _ _ _

theorem fieldDHigh_wordRdK8 (hd : 16 ≤ d.val) : fieldDHigh (wordRdK8 op d K) = d := by
  apply Fin.ext
  show (16 + ((wordRdK8 op d K).extractLsb' 4 4).toNat) % 32 = d.val
  rw [BitVec.extractLsb'_toNat, wordRdK8_toNat, Nat.shiftRight_eq_div_pow]
  omega

theorem fieldK8_wordRdK8 : fieldK8 (wordRdK8 op d K) = K := by
  apply BitVec.eq_of_toNat_eq
  rw [fieldK8, toNat_append_eq_add, BitVec.extractLsb'_toNat, BitVec.extractLsb'_toNat, wordRdK8_toNat,
    Nat.shiftRight_eq_div_pow]
  omega

end

/-- A row of format RdK8 decodes its words to its instruction. -/
theorem decodeWord_rdK8 {name : String} {op : BitVec 4} {mk : RegNum → Byte → Instr}
    (n : Fin opcodeTable.length) (hn : n.val < 12)
    (hrow : opcodeTable[n] = ⟨name, 0xF000, wordRdK8 op 16 0, 1, false, fun w _ => mk (fieldDHigh w) (fieldK8 w)⟩)
    {d : RegNum} (hd : 16 ≤ d.val) (K : Byte) (gk : Bool) (k : Word) :
    decodeWord gk
      (BitVec.ofNat 16 (op.toNat <<< 12 ||| (K.toNat &&& 0xF0) <<< 4 ||| (d.val - 16) <<< 4 ||| (K.toNat &&& 0x0F))) k =
        some (mk d K) := by
  have hfits : opcodeTable[n].fits (wordRdK8 op d K) = true := by
    rw [hrow]
    exact beq_iff_eq.2 (wordRdK8_and_opcodeMask op d K)
  rw [ofNat_eq_wordRdK8, decodeWord_of_fits n hn (by simp [hrow]) hfits, hrow]
  simp only [fieldDHigh_wordRdK8 op d K hd, fieldK8_wordRdK8]

end Sys2Proof
end

section
/-! The obligations about what AND and ANDI do (41_logic.md R110, R111). Both end in the write `State.putLogic`. -/
namespace Sys2Proof.Machine

open Sys2Proof.Safety

/-! ### The write of a logic instruction -/

section
variable (s : State) (d : RegNum) (res a b : Byte)

@[simp] theorem State.putLogic_reg_self : (s.putLogic d res).reg d = res := s.setReg_reg_self d res

@[simp] theorem State.putLogic_flags : (s.putLogic d res).flags = logicFlags res s.flags := rfl

theorem regsSameExcept_putLogic : RegsSameExcept [d] s (s.putLogic d res) := regsSameExcept_setReg s d res

/-- The register a logic instruction writes holds the and of its operands, bit by bit. -/
theorem State.putLogic_and_bit (n : Fin 8) : ((s.putLogic d (a &&& b)).reg d)[n] = (a[n] && b[n]) := by
  rw [State.putLogic_reg_self]
  exact BitVec.getElem_and n.isLt

/-- N is bit 7 of the register a logic instruction has written. -/
theorem State.putLogic_flagN : (s.putLogic d res).flags.n = ((s.putLogic d res).reg d)[7] := by
  rw [State.putLogic_reg_self]
  rfl

/-- Z tells whether the register a logic instruction has written is zero. -/
theorem State.putLogic_flagZ : (s.putLogic d res).flags.z = decide ((s.putLogic d res).reg d = 0) := by
  rw [State.putLogic_reg_self]
  rfl

end

/-! ### AND -/

/-- The state AND leads to. -/
theorem exec_and (d r : RegNum) (s : State) : exec (.and d r) s = .next (s.putLogic d (s.reg d &&& s.reg r)) := rfl

theorem decodeWord_and (d r : RegNum) (gk : Bool) (k : Word) :
    decodeWord gk (BitVec.ofNat 16 (0x2000 ||| (r.val &&& 0x10) <<< 5 ||| d.val <<< 4 ||| (r.val &&& 0x0F))) k =
      some (.and d r) :=
  decodeWord_rdRr (op := 0b001000#6) ⟨2, by decide⟩ (by decide) rfl d r gk k

/-- Settles O16: the word by its format, the result and flags from the write of a logic instruction, the rest from what
every instruction leaves. -/
theorem andFollowsItsRule : Obligations.AndFollowsItsRule := by
  intro d r s
  have he := exec_commonEffect (exec_and d r s)
  exact ⟨decodeWord_and d r, fun _ => rfl, _, exec_and d r s, s.putLogic_and_bit d _ _, rfl, s.putLogic_flagN d _,
    s.putLogic_flagZ d _, rfl, he.flagI, he.flagT, rfl, rfl, he.pc, regsSameExcept_putLogic s d _,
    storesNothing_of_commonEffect he, rfl⟩

/-! ### ANDI -/

/-- The state ANDI leads to. -/
theorem exec_andi (d : RegNum) (K : Byte) (s : State) : exec (.andi d K) s = .next (s.putLogic d (s.reg d &&& K)) := rfl

theorem decodeWord_andi {d : RegNum} (hd : 16 ≤ d.val) (K : Byte) (gk : Bool) (k : Word) :
    decodeWord gk
      (BitVec.ofNat 16 (0x7000 ||| (K.toNat &&& 0xF0) <<< 4 ||| (d.val - 16) <<< 4 ||| (K.toNat &&& 0x0F))) k =
        some (.andi d K) :=
  decodeWord_rdK8 (op := 0b0111#4) ⟨4, by decide⟩ (by decide) rfl hd K gk k

/-- Settles O17: as for AND, with the word by the format of a constant operand. -/
theorem andiFollowsItsRule : Obligations.AndiFollowsItsRule := by
  intro d K s hd
  have he := exec_commonEffect (exec_andi d K s)
  exact ⟨decodeWord_andi hd K, fun _ => rfl, _, exec_andi d K s, s.putLogic_and_bit d _ _, rfl, s.putLogic_flagN d _,
    s.putLogic_flagZ d _, rfl, he.flagI, he.flagT, rfl, rfl, he.pc, regsSameExcept_putLogic s d _,
    storesNothing_of_commonEffect he, rfl⟩

end Sys2Proof.Machine
end

section
/-! Decoding the formats Rd and RdZq (30_encoding.md R67 to R70): the words of R79 of the loads from data space
decode to their instructions. -/
namespace Sys2Proof

section
variable (op : BitVec 7) (d : RegNum) (low : BitVec 4)

/-- The box Rd as a number (R67 to R69). -/
theorem wordRd_toNat : (wordRd op d low).toNat = op.toNat * 512 + d.val * 16 + low.toNat := by
  rw [wordRd, toNat_append_eq_add (n := 7 + 5), toNat_append_eq_add, regBits_toNat]
  omega

/-- The box Rd by the arithmetic of R79. -/
theorem ofNat_eq_wordRd : BitVec.ofNat 16 ((wordRd op 0 low).toNat ||| d.val <<< 4) = wordRd op d low := by
  have hword : (wordRd op 0 low).toNat ||| d.val <<< 4 = (wordRd op d low).toNat := by
    simp only [wordRd, BitVec.toNat_append, regBits_toNat, Nat.shiftLeft_or_distrib, Nat.or_right_comm,
      Fin.val_zero, Nat.or_zero]
  rw [hword, BitVec.ofNat_toNat, BitVec.setWidth_eq]

/-- The opcode mask of the box Rd keeps the opcode and clears the register field. -/
theorem wordRd_and_opcodeMask : wordRd op d low &&& 0xFE0F = wordRd op 0 low := by
  have hfields : ∀ x : BitVec 5,
      (op ++ x ++ low) &&& (BitVec.allOnes 7 ++ 0#5 ++ BitVec.allOnes 4) = op ++ 0#5 ++ low := by
    simp only [BitVec.and_append, BitVec.and_allOnes, BitVec.and_zero, implies_true]
  exact hfields _

theorem fieldD_wordRd : fieldD (wordRd op d low) = d := by
  apply Fin.ext
  show ((wordRd op d low).extractLsb' 4 5).toNat = d.val
  rw [BitVec.extractLsb'_toNat, wordRd_toNat, Nat.shiftRight_eq_div_pow]
  omega

end

/-- An admitted row of format Rd decodes its words to its instruction; `mk` is given the word after, the operand k of
LDS. -/
theorem decodeWord_rd {name : String} {op : BitVec 7} {low : BitVec 4} {words : Nat} {rowGk gk : Bool}
    (mk : RegNum → Word → Instr) (n : Fin opcodeTable.length) (hn : n.val < 12)
    (hrow : opcodeTable[n] = ⟨name, 0xFE0F, wordRd op 0 low, words, rowGk, fun w k => mk (fieldD w) k⟩)
    (hgk : (gk || !rowGk) = true) (d : RegNum) (k : Word) :
    decodeWord gk (BitVec.ofNat 16 ((wordRd op 0 low).toNat ||| d.val <<< 4)) k = some (mk d k) := by
  have hfits : opcodeTable[n].fits (wordRd op d low) = true := by
    rw [hrow]
    exact beq_iff_eq.2 (wordRd_and_opcodeMask op d low)
  rw [ofNat_eq_wordRd, decodeWord_of_fits n hn (by rw [hrow]; exact hgk) hfits, hrow]
  simp only [fieldD_wordRd]

theorem decodeWord_lds (d : RegNum) (gk : Bool) (k : Word) :
    decodeWord gk (BitVec.ofNat 16 (0x9000 ||| d.val <<< 4)) k = some (.lds d k) :=
  decodeWord_rd (op := 0b1001000#7) (low := 0b0000#4) .lds ⟨7, by decide⟩ (by decide) rfl (Bool.or_true gk) d k

theorem decodeWord_ldZInc (d : RegNum) (k : Word) :
    decodeWord true (BitVec.ofNat 16 (0x9001 ||| d.val <<< 4)) k = some (.ldZInc d) :=
  decodeWord_rd (op := 0b1001000#7) (low := 0b0001#4) (fun d _ => .ldZInc d) ⟨8, by decide⟩ (by decide) rfl rfl d k

theorem decodeWord_ldZ (d : RegNum) (k : Word) :
    decodeWord true (BitVec.ofNat 16 (0x8000 ||| d.val <<< 4)) k = some (.ldZ d) :=
  decodeWord_rd (op := 0b1000000#7) (low := 0b0000#4) (fun d _ => .ldZ d) ⟨11, by decide⟩ (by decide) rfl rfl d k

/-- The row of LDD differs from every row before LD_Z's in a bit that both fix. -/
theorem lddRow_differs : ∀ m : Fin 11,
    opcodeTable[m].pattern &&& opcodeTable[12].mask ≠ opcodeTable[12].pattern &&& opcodeTable[m].mask := by
  decide

/-- A word with LDD's fixed bits and not LD_Z's decodes to LDD: LD_Z's row stands before it (R73). -/
theorem decodeWord_of_fits_lddRow {w : Word} (hw : opcodeTable[12].fits w = true)
    (hldZ : opcodeTable[11].fits w = false) (k : Word) :
    decodeWord true w k = some (.lddZ (fieldD w) (fieldQ w)) := by
  have hrow : findRow true w = some opcodeTable[12] := by
    refine List.find?_eq_some_iff_getElem.2 ⟨by rw [hw]; rfl, 12, by decide, rfl, fun m hm => ?_⟩
    have hlen : m < opcodeTable.length := hm.trans (by decide)
    have hmw : opcodeTable[m].fits w ≠ true := by
      obtain rfl | hm11 : m = 11 ∨ m < 11 := by omega
      · exact Bool.eq_false_iff.1 hldZ
      · exact fun h => lddRow_differs ⟨m, hm11⟩ (OpRow.fits_agree h hw)
    simp [hmw]
  rw [decodeWord, hrow]
  rfl

/-- The 2048 words of LDD: the fixed bits, LD_Z's only where q = 0, and the operands in their fields (R70). -/
theorem lddZWord_fields : ∀ (d : RegNum) (q : BitVec 6) (w : Word),
    w = BitVec.ofNat 16 (0x8000 ||| (q.toNat &&& 0x20) <<< 8 ||| (q.toNat &&& 0x18) <<< 7 ||| d.val <<< 4
      ||| (q.toNat &&& 0x07)) →
    opcodeTable[12].fits w = true ∧ (q ≠ 0 → opcodeTable[11].fits w = false) ∧ fieldD w = d ∧ fieldQ w = q := by
  simp only [forall_eq]
  decide +kernel

/-- LDD's words decode to LDD, and to LD Rd,Z where q = 0 (R70, 90_conflicts.md C8). -/
theorem decodeWord_lddZ (d : RegNum) (q : BitVec 6) (k : Word) :
    decodeWord true
      (BitVec.ofNat 16 (0x8000 ||| (q.toNat &&& 0x20) <<< 8 ||| (q.toNat &&& 0x18) <<< 7 ||| d.val <<< 4
        ||| (q.toNat &&& 0x07))) k = some (if q = 0 then .ldZ d else .lddZ d q) := by
  by_cases hq : q = 0
  · subst hq
    simpa using decodeWord_ldZ d k
  · obtain ⟨hfits, hldZ, hfieldD, hfieldQ⟩ := lddZWord_fields d q _ rfl
    rw [decodeWord_of_fits_lddRow hfits (hldZ hq), hfieldD, hfieldQ, if_neg hq]

end Sys2Proof
end

section
/-! What a load from data space does at an address that reads as a byte, and at one that does not (20_memory.md R44,
R50; 42_load.md R121 to R126). -/
namespace Sys2Proof.Safety

open Sys2Proof.Machine

/-- Registers left by two updates in turn are those that neither may write. -/
theorem RegsSameExcept.trans {ds es : List RegNum} {s t u : State} (hst : RegsSameExcept ds s t)
    (htu : RegsSameExcept es t u) : RegsSameExcept (ds ++ es) s u := by
  intro j hj
  obtain ⟨hds, hes⟩ : j ∉ ds ∧ j ∉ es := by simpa using hj
  exact (htu j hes).trans (hst j hds)

/-- The state after the byte v, read at address a, has gone to register d: pc is still to be moved. -/
def loaded (s : State) (d : RegNum) (a : Nat) (v : Byte) : State :=
  { s with draws := s.draws + drawsOf s a }.setReg d v

/-- A load of n words moved v from address a to register d and did nothing else. -/
def LoadsByte (s t : State) (d : RegNum) (a : Nat) (v : Byte) (n : Nat) : Prop :=
  t.reg d = v ∧ t.flags = s.flags ∧ t.pc = s.pc + n ∧ RegsSameExcept [d] s t ∧ StoresNothing s t ∧
    t.draws = s.draws + drawsOf s a

section
variable {s : State} {d : RegNum} {a : Nat} {v : Byte} {ea : Word}

theorem loadsByte_loaded (s : State) (d : RegNum) (a : Nat) (v : Byte) (n : Nat) :
    LoadsByte s ((loaded s d a v).advance n) d a v n :=
  ⟨State.setReg_reg_self _ d v, rfl, rfl, regsSameExcept_setReg { s with draws := s.draws + drawsOf s a } d v,
    storesNothing_withDraws s (s.draws + drawsOf s a), rfl⟩

theorem load_of_dataReads (h : DataReads s a v) : s.load d a = .ok (loaded s d a v) := by
  rw [State.load, memRead_of_dataReads h]
  rfl

theorem load_unmapped (h : s.cfg.classify a = .unmapped) : s.load d a = .error .unmappedDataAddress := by
  rw [State.load, State.memRead_unmapped h]

section
variable (hz : s.cfg.rampzBits = 0) (after : State → State)
include hz

theorem loadThroughZ_of_dataReads (h : DataReads s ea.toNat v) :
    s.loadThroughZ d ea after = .next ((after (loaded s d ea.toNat v)).advance 1) := by
  rw [State.loadThroughZ, if_pos hz, load_of_dataReads h]

theorem loadThroughZ_unmapped (h : s.cfg.classify ea.toNat = .unmapped) :
    s.loadThroughZ d ea after = .refused .unmappedDataAddress := by
  rw [State.loadThroughZ, if_pos hz, load_unmapped h]

/-- The rule that LD Rd,Z and LDD share: the byte at ea goes to d, Z itself is not written (R121, R124). -/
theorem loadThroughZ_id_rule (d : RegNum) (ea : Word) :
    (∀ v, DataReads s ea.toNat v → ∃ t, s.loadThroughZ d ea id = .next t ∧ LoadsByte s t d ea.toNat v 1) ∧
      (s.cfg.classify ea.toNat = .unmapped → s.loadThroughZ d ea id = .refused .unmappedDataAddress) :=
  ⟨fun v h => ⟨_, loadThroughZ_of_dataReads hz id h, loadsByte_loaded s d _ v 1⟩, loadThroughZ_unmapped hz id⟩

end

end

end Sys2Proof.Safety
end

section
/-! The obligations about what the loads do (42_load.md R121, R122, R124 to R126). -/
namespace Sys2Proof.Machine

open Sys2Proof.Safety

/-! ### LDS -/

/-- The state LDS leads to, where its address reads as v. -/
theorem exec_lds_of_dataReads {d : RegNum} {k : Word} {s : State} {v : Byte} (h : DataReads s (s.ldsAddress k) v) :
    exec (.lds d k) s = .next ((loaded s d (s.ldsAddress k) v).advance 2) := by
  show execLds d k s = _
  rw [execLds, load_of_dataReads h]

theorem exec_lds_unmapped {d : RegNum} {k : Word} {s : State} (h : s.cfg.classify (s.ldsAddress k) = .unmapped) :
    exec (.lds d k) s = .refused .unmappedDataAddress := by
  show execLds d k s = _
  rw [execLds, load_unmapped h]

/-- With no RAMPD the address of LDS is its operand (20_memory.md R46). -/
theorem State.ldsAddress_of_rampdBits_zero {s : State} (h : s.cfg.rampdBits = 0) (k : Word) :
    s.ldsAddress k = k.toNat := by
  rw [State.ldsAddress, State.rampdVal, h, pow_zero, Nat.mod_one, Nat.zero_mul, Nat.zero_add]

/-- A two-word instruction whose first word is the last of program memory is refused (10_state.md R25). -/
theorem step_secondWord_outOfRange {s : State} {i : Instr} (hcore : s.cfg.core ≠ .avrrc)
    (hlast : s.pc + 1 = s.cfg.flashWords)
    (hi : decodeWord s.cfg.admitGk (s.pmWord s.pc) (s.pmWord (s.pc + 1)) = some i)
    (hav : isAvailable s.cfg i = true) (hwords : i.words = 2) : step s = .refused .pcOutOfRange := by
  have hpc : ¬ s.cfg.flashWords ≤ s.pc := by omega
  have hfetch : s.fetch = .error .pcOutOfRange := by
    simp [State.fetch, hcore, hpc, hi, hav, hwords, hlast.ge]
  rw [step, hfetch]

/-- Settles O26: the word by its format, the load by the rule of a byte that data space reads as, the missing second
word by fetch. -/
theorem ldsFollowsItsRule : Obligations.LdsFollowsItsRule := by
  intro d k s
  refine ⟨fun gk => decodeWord_lds d gk k, fun _ => rfl, (State.ldsAddress_of_rampdBits_zero · k),
    ⟨?loads, exec_lds_unmapped⟩, ?secondWord⟩
  case loads => exact fun v h => ⟨_, exec_lds_of_dataReads h, loadsByte_loaded s d _ v 2⟩
  case secondWord =>
    intro hcore hlds hlast hword
    exact step_secondWord_outOfRange (i := .lds d (s.pmWord (s.pc + 1))) hcore hlast
      (by rw [hword, decodeWord_lds]) hlds rfl

/-! ### LD Rd,Z and LDD Rd,Z+q -/

/-- Settles O27: the word by its format, the load by the rule of LD Rd,Z and LDD at Z as a number. -/
theorem ldZFollowsItsRule : Obligations.LdZFollowsItsRule := by
  intro d s
  refine ⟨decodeWord_ldZ d, fun _ => rfl, fun hz => ?_⟩
  rw [← State.z_toNat]
  exact loadThroughZ_id_rule hz d s.z

/-- The address of LDD as a number: the sum wraps at 16 bits (R124). -/
theorem State.zPlus_toNat (s : State) (q : BitVec 6) :
    (s.zPlus q).toNat = ((s.reg 31).toNat * 256 + (s.reg 30).toNat + q.toNat) % 65536 := by
  rw [State.zPlus, BitVec.toNat_add, State.z_toNat, BitVec.toNat_setWidth_of_le (by decide)]

/-- A displacement of 0 leaves Z. -/
theorem State.zPlus_zero (s : State) : s.zPlus 0 = s.z := BitVec.add_zero s.z

/-- Settles O31: the word from the words of LDD, the load by the rule of LD Rd,Z and LDD at Z + q as a number. -/
theorem lddZFollowsItsRule : Obligations.LddZFollowsItsRule := by
  intro d q s
  refine ⟨decodeWord_lddZ d q, congrArg (s.loadThroughZ d · id) s.zPlus_zero, fun _ => rfl, fun hz => ?_⟩
  rw [← State.zPlus_toNat]
  exact loadThroughZ_id_rule hz d (s.zPlus q)

/-! ### LD Rd,Z+ -/

theorem isHalfOfZ_iff (d : RegNum) : isHalfOfZ d = true ↔ d = 30 ∨ d = 31 := by
  simp [isHalfOfZ]

theorem exec_ldZInc_halfOfZ {d : RegNum} (s : State) (hd : d = 30 ∨ d = 31) :
    exec (.ldZInc d) s = .refused .ldPostincIntoZ :=
  if_pos ((isHalfOfZ_iff d).2 hd)

/-- LD Rd,Z+ loads through the old Z, then writes Z, where d is no half of it (R122). -/
theorem exec_ldZInc {d : RegNum} (s : State) (h30 : d ≠ 30) (h31 : d ≠ 31) :
    exec (.ldZInc d) s = s.loadThroughZ d s.z fun t => t.setPair zLow (s.z + 1) :=
  if_neg fun h => ((isHalfOfZ_iff d).1 h).elim h30 h31

/-- Writing Z leaves a register that is no half of it. -/
theorem State.setPair_zLow_reg_ne (s : State) (w : Word) {d : RegNum} (h30 : d ≠ 30) (h31 : d ≠ 31) :
    (s.setPair zLow w).reg d = s.reg d := by
  refine regsSameExcept_setPair s zLow w d fun hmem => ?_
  obtain h | h := List.mem_pair.1 hmem
  · exact h30 h
  · exact h31 h

/-- Settles O28: the word by its format, the load at the old Z, then the write of Z, which d is no half of. -/
theorem ldZIncFollowsItsRule : Obligations.LdZIncFollowsItsRule := by
  intro d s
  refine ⟨decodeWord_ldZInc d, fun _ => rfl, exec_ldZInc_halfOfZ s, fun h30 h31 hz => ?_⟩
  rw [← State.z_toNat, exec_ldZInc s h30 h31]
  refine ⟨fun v h => ⟨_, loadThroughZ_of_dataReads hz _ h, ?effect⟩, loadThroughZ_unmapped hz _⟩
  case effect =>
    obtain ⟨hreg, hflags, -, hregs, hmem, hdraws⟩ := loadsByte_loaded s d s.z.toNat v 1
    refine ⟨(State.setPair_zLow_reg_ne _ _ h30 h31).trans hreg, ?z, hflags, rfl,
      hregs.trans (regsSameExcept_setPair _ zLow _), hmem, hdraws⟩
    case z =>
      rw [← State.z_toNat]
      exact (congrArg BitVec.toNat (State.setPair_pair _ zLow _)).trans (BitVec.toNat_add s.z 1)

/-! ### LDI -/

theorem decodeWord_ldi {d : RegNum} (hd : 16 ≤ d.val) (K : Byte) (gk : Bool) (k : Word) :
    decodeWord gk
      (BitVec.ofNat 16 (0xE000 ||| (K.toNat &&& 0xF0) <<< 4 ||| (d.val - 16) <<< 4 ||| (K.toNat &&& 0x0F))) k =
        some (.ldi d K) :=
  decodeWord_rdK8 (op := 0b1110#4) ⟨5, by decide⟩ (by decide) rfl hd K gk k

/-- The state LDI leads to. -/
theorem exec_ldi (d : RegNum) (K : Byte) (s : State) : exec (.ldi d K) s = .next ((s.setReg d K).advance 1) := rfl

/-- Settles O23: the word by the format of a constant operand, the rest from the state LDI leads to and what every
instruction leaves. -/
theorem ldiFollowsItsRule : Obligations.LdiFollowsItsRule := by
  intro d K s hd
  have he := exec_commonEffect (exec_ldi d K s)
  exact ⟨decodeWord_ldi hd K, fun _ => rfl, _, exec_ldi d K s, s.setReg_reg_self d K, rfl, he.pc,
    regsSameExcept_setReg s d K, storesNothing_of_commonEffect he, rfl⟩

end Sys2Proof.Machine
end

section
/-! Rows the device does not admit (30_encoding.md R73, R74; 00_scope.md R5): the rows from general knowledge stand
last, so with ADMIT_GK false no row takes their words. -/
namespace Sys2Proof

/-- Every row of the source stands before every row from general knowledge. -/
theorem opcodeTable_gk_last : ∀ n m : Fin opcodeTable.length,
    opcodeTable[n].gk = true → opcodeTable[m].gk = false → m < n := by
  decide

/-- A word of a row from general knowledge before LDD is no instruction where these rows are not admitted. -/
theorem decodeWord_of_fits_not_admitted {w : Word} (n : Fin opcodeTable.length) (hn : n.val < 12)
    (hgk : opcodeTable[n].gk = true) (hw : opcodeTable[n].fits w = true) (k : Word) :
    decodeWord false w k = none := by
  have hrow : findRow false w = none := by
    refine List.find?_eq_none.2 fun r hr hpick => ?_
    obtain ⟨m, hm, rfl⟩ := List.getElem_of_mem hr
    obtain ⟨hmgk, hmw⟩ : opcodeTable[m].gk = false ∧ opcodeTable[m].fits w = true := by simpa using hpick
    have hmn := opcodeTable_gk_last n ⟨m, hm⟩ hgk hmgk
    exact opcodeTable_rows_differ n hn ⟨m, hm⟩ hmn (OpRow.fits_agree hmw hw)
  rw [decodeWord, hrow, Option.map_none]

theorem decodeWord_lsr (d : RegNum) (k : Word) :
    decodeWord true (BitVec.ofNat 16 (0x9406 ||| d.val <<< 4)) k = some (.lsr d) :=
  decodeWord_rd (op := 0b1001010#7) (low := 0b0110#4) (fun d _ => .lsr d) ⟨10, by decide⟩ (by decide) rfl rfl d k

theorem decodeWord_lsr_not_admitted (d : RegNum) (k : Word) :
    decodeWord false (BitVec.ofNat 16 (0x9406 ||| d.val <<< 4)) k = none := by
  have hword := ofNat_eq_wordRd 0b1001010#7 d 0b0110#4
  have hfits : opcodeTable[10].fits (wordRd 0b1001010#7 d 0b0110#4) = true :=
    beq_iff_eq.2 (wordRd_and_opcodeMask 0b1001010#7 d 0b0110#4)
  exact (congrArg (decodeWord false · k) hword).trans
    (decodeWord_of_fits_not_admitted ⟨10, by decide⟩ (by decide) rfl hfits k)

end Sys2Proof
end

section
/-! The obligation about what LSR does (43_shift.md R140). -/
namespace Sys2Proof.Machine

open Sys2Proof.Safety

/-- The state LSR leads to. -/
theorem exec_lsr (d : RegNum) (s : State) : exec (.lsr d) s =
    .next (((s.setReg d (s.reg d >>> 1)).setFlags (lsrFlags (s.reg d) (s.reg d >>> 1) s.flags)).advance 1) := rfl

/-- A shift right by one moves each bit down by one place. -/
theorem ushiftRight_one_bit (a : Byte) (n : Fin 7) : (a >>> 1)[n.val] = a[n.val + 1] := by
  rw [BitVec.getElem_ushiftRight, Nat.add_comm, BitVec.getLsbD_eq_getElem]

/-- A shift right by one puts a zero into bit 7. -/
theorem ushiftRight_one_bit7 (a : Byte) : (a >>> 1)[7] = false := by
  rw [BitVec.getElem_ushiftRight]
  exact BitVec.getLsbD_of_ge a 8 (Nat.le_refl 8)

/-- Settles O19: the word by its format and by the rows admitted, the result bit by bit and the flags from the state LSR
leads to, the rest from what every instruction leaves. -/
theorem lsrFollowsItsRule : Obligations.LsrFollowsItsRule := by
  intro d s
  have he := exec_commonEffect (exec_lsr d s)
  refine ⟨fun k => ⟨decodeWord_lsr d k, decodeWord_lsr_not_admitted d k⟩, fun _ => rfl, _, exec_lsr d s, ?bit7, ?bits,
    rfl, rfl, rfl, rfl, ?flagZ, he.flagI, he.flagT, rfl, he.pc, regsSameExcept_setReg s d _,
    storesNothing_of_commonEffect he, rfl⟩
  all_goals simp only [State.advance_reg, State.setFlags_reg, State.setReg_reg_self]
  case bit7 => exact ushiftRight_one_bit7 (s.reg d)
  case bits => exact ushiftRight_one_bit (s.reg d)
  case flagZ => rfl

end Sys2Proof.Machine
end

section
/-! Decoding the format PairPair (30_encoding.md R66): the words of R79 that MOVW has decode to MOVW on the pairs they
were made from. -/
namespace Sys2Proof

section
variable (d r : RegNum)

/-- The field of a pair holds half its low register's number. -/
theorem pairBits_toNat : (BitVec.ofNat 4 (d.val / 2)).toNat = d.val / 2 := Nat.mod_eq_of_lt (by omega)

/-- The number of an even register is twice its half. -/
theorem regOfNat_two_mul_half (hd : d.val % 2 = 0) : regOfNat (2 * (d.val / 2)) = d := by
  apply Fin.ext
  show 2 * (d.val / 2) % 32 = d.val
  omega

/-- The box PairPair by the arithmetic of R79. -/
theorem ofNat_eq_wordPairPair : BitVec.ofNat 16 (0x0100 ||| (d.val / 2) <<< 4 ||| (r.val / 2)) =
    0x01#8 ++ BitVec.ofNat 4 (d.val / 2) ++ BitVec.ofNat 4 (r.val / 2) := by
  have hword : 0x0100 ||| (d.val / 2) <<< 4 ||| (r.val / 2) =
      (0x01#8 ++ BitVec.ofNat 4 (d.val / 2) ++ BitVec.ofNat 4 (r.val / 2)).toNat := by
    simp only [BitVec.toNat_append, pairBits_toNat, Nat.shiftLeft_or_distrib, ← Nat.shiftLeft_add]
    rfl
  rw [hword, BitVec.ofNat_toNat, BitVec.setWidth_eq]

/-- The opcode mask of the box PairPair keeps the opcode and clears the fields. -/
theorem wordPairPair_and_opcodeMask (x y : BitVec 4) : (0x01#8 ++ x ++ y) &&& 0xFF00 = (0x0100 : Word) := by
  have hfields : (0x01#8 ++ x ++ y) &&& (BitVec.allOnes 8 ++ 0#4 ++ 0#4) = 0x01#8 ++ 0#4 ++ 0#4 := by
    simp only [BitVec.and_append, BitVec.and_allOnes, BitVec.and_zero]
  exact hfields

theorem fieldDPair_wordPairPair (hd : d.val % 2 = 0) (y : BitVec 4) :
    fieldDPair (0x01#8 ++ BitVec.ofNat 4 (d.val / 2) ++ y) = d := by
  have hfield : (0x01#8 ++ BitVec.ofNat 4 (d.val / 2) ++ y).extractLsb' 4 4 = BitVec.ofNat 4 (d.val / 2) := by
    rw [BitVec.extractLsb'_append_eq_of_le (by decide), BitVec.extractLsb'_append_eq_right]
  rw [fieldDPair, hfield, pairBits_toNat, regOfNat_two_mul_half d hd]

theorem fieldRPair_wordPairPair (hr : r.val % 2 = 0) (x : BitVec 12) :
    fieldRPair (x ++ BitVec.ofNat 4 (r.val / 2)) = r := by
  rw [fieldRPair, BitVec.extractLsb'_append_eq_right, pairBits_toNat, regOfNat_two_mul_half r hr]

end

theorem decodeWord_movw {d r : RegNum} (hd : d.val % 2 = 0) (hr : r.val % 2 = 0) (gk : Bool) (k : Word) :
    decodeWord gk (BitVec.ofNat 16 (0x0100 ||| (d.val / 2) <<< 4 ||| (r.val / 2))) k = some (.movw d r) := by
  rw [ofNat_eq_wordPairPair,
    decodeWord_of_fits ⟨0, by decide⟩ (by decide) (Bool.or_true gk) (beq_iff_eq.2 (wordPairPair_and_opcodeMask _ _)) k]
  exact congrArg some (congrArg₂ Instr.movw (fieldDPair_wordPairPair d hd _) (fieldRPair_wordPairPair r hr _))

end Sys2Proof
end

section
/-! The obligations about what MOV and MOVW do (44_move.md R150, R151). -/
namespace Sys2Proof.Machine

open Sys2Proof.Safety

/-! ### MOV -/

/-- A register copied into another keeps its value, also where it is the one written. -/
theorem State.setReg_reg_source (s : State) (d r : RegNum) : (s.setReg d (s.reg r)).reg r = s.reg r := by
  rw [State.setReg_reg, ite_self]

/-- The state MOV leads to. -/
theorem exec_mov (d r : RegNum) (s : State) : exec (.mov d r) s = .next ((s.setReg d (s.reg r)).advance 1) := rfl

theorem decodeWord_mov (d r : RegNum) (gk : Bool) (k : Word) :
    decodeWord gk (BitVec.ofNat 16 (0x2C00 ||| (r.val &&& 0x10) <<< 5 ||| d.val <<< 4 ||| (r.val &&& 0x0F))) k =
      some (.mov d r) :=
  decodeWord_rdRr (op := 0b001011#6) ⟨3, by decide⟩ (by decide) rfl d r gk k

/-- Settles O21: the word by its format, the copy from the state MOV leads to, the rest from what every instruction
leaves. -/
theorem movFollowsItsRule : Obligations.MovFollowsItsRule := by
  intro d r s
  have he := exec_commonEffect (exec_mov d r s)
  exact ⟨decodeWord_mov d r, fun _ => rfl, _, exec_mov d r s, s.setReg_reg_self d _, s.setReg_reg_source d r, rfl,
    he.pc, regsSameExcept_setReg s d _, storesNothing_of_commonEffect he, rfl⟩

/-! ### MOVW -/

/-- The state MOVW leads to. -/
theorem exec_movw (d r : RegNum) (s : State) : exec (.movw d r) s = .next ((s.setPair d (s.pair r)).advance 1) := rfl

/-- Of two even registers, neither is the high register of the other's pair. -/
theorem even_ne_even_add_one {d r : RegNum} (hd : d.val % 2 = 0) (hr : r.val % 2 = 0) : d ≠ r + 1 := by
  intro h
  have hval : d.val = (r.val + 1) % 32 := congrArg Fin.val h
  omega

section
variable (s : State) (d r : RegNum)

theorem State.pair_low : (s.pair r).extractLsb' 0 8 = s.reg r := BitVec.extractLsb'_append_eq_right

theorem State.pair_high : (s.pair r).extractLsb' 8 8 = s.reg (r + 1) := BitVec.extractLsb'_append_eq_left

/-- A pair copied into another keeps its low register. -/
theorem State.setPair_reg_source_low (hd : d.val % 2 = 0) (hr : r.val % 2 = 0) :
    (s.setPair d (s.pair r)).reg r = s.reg r := by
  rw [State.setPair_reg, if_neg (even_ne_even_add_one hr hd), State.pair_low, ite_self]

/-- A pair copied into another keeps its high register. -/
theorem State.setPair_reg_source_high (hd : d.val % 2 = 0) (hr : r.val % 2 = 0) :
    (s.setPair d (s.pair r)).reg (r + 1) = s.reg (r + 1) := by
  rw [State.setPair_reg, if_neg (even_ne_even_add_one hd hr).symm, State.pair_high, ite_self]

end

/-- Settles O22: the word by the format of two pairs, the copy from the state MOVW leads to, where an even register is
never the high one of a pair, the rest from what every instruction leaves. -/
theorem movwFollowsItsRule : Obligations.MovwFollowsItsRule := by
  intro d r s hd hr
  have he := exec_commonEffect (exec_movw d r s)
  exact ⟨decodeWord_movw hd hr, fun _ => rfl, _, exec_movw d r s,
    (s.setPair_reg_low d _).trans (s.pair_low r), (s.setPair_reg_high d _).trans (s.pair_high r),
    s.setPair_reg_source_low d r hd hr, s.setPair_reg_source_high d r hd hr, rfl,
    he.pc, regsSameExcept_setPair s d _, storesNothing_of_commonEffect he, rfl⟩

end Sys2Proof.Machine
end

section
/-! The checks of a step in their order (60_exceptions.md R162): what fetch refuses, then what the fetched instruction
refuses. -/
namespace Sys2Proof.Machine

open Sys2Proof.Safety

/-! ### The checks of fetch -/

section
variable {s : State} {i : Instr}

/-- What a step does with the instruction it fetched: its rule, on the state itself (70_reset_and_hazards.md R182). -/
theorem step_of_fetch_ok (h : s.fetch = .ok i) : step s = exec i s := by
  rw [step, h]

/-- A refusal of fetch is the step's. -/
theorem step_of_fetch_error {r : Refusal} (h : s.fetch = .error r) : step s = .refused r := by
  rw [step, h]

theorem State.fetch_avrrc (hcore : s.cfg.core = .avrrc) : s.fetch = .error .coreNotModelled :=
  if_pos hcore

section
variable (hcore : s.cfg.core ≠ .avrrc)
include hcore

theorem State.fetch_pastEnd (hpc : s.cfg.flashWords ≤ s.pc) : s.fetch = .error .pcOutOfRange := by
  rw [State.fetch, if_neg hcore, if_pos hpc]

variable (hpc : s.pc < s.cfg.flashWords)
include hpc

theorem State.fetch_noRow (hi : decodeWord s.cfg.admitGk (s.pmWord s.pc) (s.pmWord (s.pc + 1)) = none) :
    s.fetch = .error .opcodeNotInSpec := by
  rw [State.fetch, if_neg hcore, if_neg hpc.not_ge, hi]

theorem State.fetch_unavailable (hi : decodeWord s.cfg.admitGk (s.pmWord s.pc) (s.pmWord (s.pc + 1)) = some i)
    (hav : isAvailable s.cfg i = false) : s.fetch = .error .instructionNotOnThisDevice := by
  simp only [State.fetch, if_neg hcore, if_neg hpc.not_ge, hi, if_pos hav]

end

end

/-! ### The checks of the instruction -/

theorem exec_ldZDec_halfOfZ {d : RegNum} (s : State) (hd : d = 30 ∨ d = 31) :
    exec (.ldZDec d) s = .refused .ldPredecIntoZ :=
  if_pos ((isHalfOfZ_iff d).2 hd)

/-- LD Rd,-Z writes Z, then loads through it, where d is no half of it (R123). -/
theorem exec_ldZDec {d : RegNum} (s : State) (h30 : d ≠ 30) (h31 : d ≠ 31) :
    exec (.ldZDec d) s = (s.setPair zLow (s.z - 1)).loadThroughZ d (s.z - 1) id :=
  if_neg fun h => ((isHalfOfZ_iff d).1 h).elim h30 h31

/-- An instruction that no earlier check refuses is refused for the Unmapped address it would read (20_memory.md R50):
only a load names an address, and a load that is not LDS reads through Z. -/
theorem exec_unmapped {i : Instr} {s : State} {a : Nat} (hinc30 : i ≠ .ldZInc 30) (hinc31 : i ≠ .ldZInc 31)
    (hdec30 : i ≠ .ldZDec 30) (hdec31 : i ≠ .ldZDec 31) (hz : i.words = 1 → s.cfg.rampzBits = 0)
    (ha : dataAddress i s = some a) (hclass : s.cfg.classify a = .unmapped) :
    exec i s = .refused .unmappedDataAddress := by
  cases i with
  | movw | add | and | mov | andi | ldi | adiw | lsr => cases ha
  | lds d k =>
    cases ha
    exact exec_lds_unmapped hclass
  | ldZ d =>
    cases ha
    exact loadThroughZ_unmapped (hz rfl) id hclass
  | lddZ d q =>
    cases ha
    exact loadThroughZ_unmapped (hz rfl) id hclass
  | ldZInc d =>
    cases ha
    rw [exec_ldZInc s (mt (congrArg Instr.ldZInc) hinc30) (mt (congrArg Instr.ldZInc) hinc31)]
    exact loadThroughZ_unmapped (hz rfl) _ hclass
  | ldZDec d =>
    cases ha
    rw [exec_ldZDec s (mt (congrArg Instr.ldZDec) hdec30) (mt (congrArg Instr.ldZDec) hdec31)]
    exact loadThroughZ_unmapped (s := s.setPair zLow (s.z - 1)) (hz rfl) id hclass

/-- Settles O2: the first checks are those of fetch, one equation for each; past them the step is the instruction's
rule, whose refusals are those of a half of Z and of an Unmapped address. -/
theorem stepRefusesByFirstFailedCheck : Obligations.StepRefusesByFirstFailedCheck := by
  intro s
  refine ⟨fun hcore => step_of_fetch_error (State.fetch_avrrc hcore),
    fun hcore hpc => step_of_fetch_error (State.fetch_pastEnd hcore hpc), fun hcore hpc =>
    ⟨fun hnone => step_of_fetch_error (State.fetch_noRow hcore hpc hnone), fun i hi => ?decoded⟩⟩
  case decoded =>
    have hrun : isAvailable s.cfg i = true → (i.words = 2 → s.pc + 1 < s.cfg.flashWords) → step s = exec i s :=
      fun hav hlen => step_of_fetch_ok (State.fetch_ok_iff.2 ⟨hcore, hpc, hi, hav, hlen⟩)
    refine ⟨fun hav => step_of_fetch_error (State.fetch_unavailable hcore hpc hi hav), ?secondWord, ?postinc, ?predec,
      ?unmapped⟩
    case secondWord =>
      exact fun hav hlast hwords => step_secondWord_outOfRange hcore (Nat.le_antisymm hpc hlast) hi hav hwords
    case postinc =>
      rintro hav (rfl | rfl)
      · exact (hrun hav nofun).trans (exec_ldZInc_halfOfZ s (.inl rfl))
      · exact (hrun hav nofun).trans (exec_ldZInc_halfOfZ s (.inr rfl))
    case predec =>
      rintro hav (rfl | rfl)
      · exact (hrun hav nofun).trans (exec_ldZDec_halfOfZ s (.inl rfl))
      · exact (hrun hav nofun).trans (exec_ldZDec_halfOfZ s (.inr rfl))
    case unmapped =>
      intro hav hlen hinc30 hinc31 hdec30 hdec31 hz a ha hclass
      exact (hrun hav hlen).trans (exec_unmapped hinc30 hinc31 hdec30 hdec31 hz ha hclass)

end Sys2Proof.Machine
end

section
/-! The operand fields of a word put back into its box give the word (30_encoding.md R63 to R72): each box is the
word's own bits, cut where the fields begin. -/
namespace Sys2Proof

/-- Where a mask keeps a run of bits, the word has the pattern's bits. -/
theorem extractLsb'_of_and_eq {w mask pattern : Word} (h : w &&& mask = pattern) (start len : Nat)
    (hmask : mask.extractLsb' start len = BitVec.allOnes len) :
    w.extractLsb' start len = pattern.extractLsb' start len := by
  rw [← h, BitVec.extractLsb'_and, hmask, BitVec.and_allOnes]

theorem regBits_regOfBits (b : BitVec 5) : regBits (regOfBits b) = b := by
  rw [regBits, regOfBits, BitVec.ofNat_toNat, BitVec.setWidth_eq]

section
variable {w : Word}

theorem fieldDHigh_val : (fieldDHigh w).val = 16 + (w.extractLsb' 4 4).toNat :=
  Nat.mod_eq_of_lt (by have := (w.extractLsb' 4 4).isLt; omega)

theorem fieldDUpperPair_val : (fieldDUpperPair w).val = 24 + 2 * (w.extractLsb' 4 2).toNat :=
  Nat.mod_eq_of_lt (by have := (w.extractLsb' 4 2).isLt; omega)

theorem fieldDPair_val : (fieldDPair w).val = 2 * (w.extractLsb' 4 4).toNat :=
  Nat.mod_eq_of_lt (by have := (w.extractLsb' 4 4).isLt; omega)

theorem fieldRPair_val : (fieldRPair w).val = 2 * (w.extractLsb' 0 4).toNat :=
  Nat.mod_eq_of_lt (by have := (w.extractLsb' 0 4).isLt; omega)

/-- The box RdRr (R63). -/
theorem wordRdRr_fields {op : BitVec 6} (hop : w.extractLsb' 10 6 = op) : wordRdRr op (fieldD w) (fieldR w) = w := by
  rw [wordRdRr, fieldD, fieldR, regBits_regOfBits, regBits_regOfBits, BitVec.extractLsb'_append_eq_left,
    BitVec.extractLsb'_append_eq_right, ← hop]
  simp only [BitVec.extractLsb'_append_extractLsb'_eq_extractLsb']
  exact BitVec.extractLsb'_eq_self

/-- The box RdK8 (R64). -/
theorem wordRdK8_fields {op : BitVec 4} (hop : w.extractLsb' 12 4 = op) :
    wordRdK8 op (fieldDHigh w) (fieldK8 w) = w := by
  rw [wordRdK8, fieldK8, fieldDHigh_val, Nat.add_sub_cancel_left, BitVec.ofNat_toNat, BitVec.setWidth_eq,
    BitVec.extractLsb'_append_eq_left, BitVec.extractLsb'_append_eq_right, ← hop]
  simp only [BitVec.extractLsb'_append_extractLsb'_eq_extractLsb']
  exact BitVec.extractLsb'_eq_self

/-- The box Rd (R67 to R69). -/
theorem wordRd_fields {op : BitVec 7} {low : BitVec 4} (hop : w.extractLsb' 9 7 = op) (hlow : w.extractLsb' 0 4 = low) :
    wordRd op (fieldD w) low = w := by
  rw [wordRd, fieldD, regBits_regOfBits, ← hop, ← hlow]
  simp only [BitVec.extractLsb'_append_extractLsb'_eq_extractLsb']
  exact BitVec.extractLsb'_eq_self

/-- The box PairPair (R66). -/
theorem encodeWords_movw_fields (hop : w.extractLsb' 8 8 = 0x01#8) :
    encodeWords (.movw (fieldDPair w) (fieldRPair w)) = [w] := by
  rw [encodeWords, fieldDPair_val, fieldRPair_val, Nat.mul_div_cancel_left _ (by decide),
    Nat.mul_div_cancel_left _ (by decide), BitVec.ofNat_toNat, BitVec.ofNat_toNat, BitVec.setWidth_eq,
    BitVec.setWidth_eq, ← hop]
  simp only [BitVec.extractLsb'_append_extractLsb'_eq_extractLsb']
  exact congrArg (fun v : Word => [v]) BitVec.extractLsb'_eq_self

/-- The box PairK6 (R65). -/
theorem encodeWords_adiw_fields (hop : w.extractLsb' 8 8 = 0x96#8) :
    encodeWords (.adiw (fieldDUpperPair w) (fieldK6 w)) = [w] := by
  rw [encodeWords, fieldDUpperPair_val, fieldK6, Nat.add_sub_cancel_left, Nat.mul_div_cancel_left _ (by decide),
    BitVec.ofNat_toNat, BitVec.setWidth_eq, BitVec.extractLsb'_append_eq_left, BitVec.extractLsb'_append_eq_right,
    ← hop]
  simp only [BitVec.extractLsb'_append_extractLsb'_eq_extractLsb']
  exact congrArg (fun v : Word => [v]) BitVec.extractLsb'_eq_self

/-- The three parts of q in its box (R70). -/
theorem fieldQ_parts : (fieldQ w).extractLsb' 5 1 = w.extractLsb' 13 1 ∧
    (fieldQ w).extractLsb' 3 2 = w.extractLsb' 10 2 ∧ (fieldQ w).extractLsb' 0 3 = w.extractLsb' 0 3 := by
  refine ⟨?_, ?_, BitVec.extractLsb'_append_eq_right⟩
  · rw [fieldQ, BitVec.extractLsb'_append_eq_of_le (by decide)]
    exact BitVec.extractLsb'_append_eq_left
  · rw [fieldQ, BitVec.extractLsb'_append_eq_of_le (by decide)]
    exact BitVec.extractLsb'_append_eq_right

/-- The box RdZq (R70). -/
theorem encodeWords_lddZ_fields (h14 : w.extractLsb' 14 2 = 0b10#2) (h12 : w.extractLsb' 12 1 = 0b0#1)
    (h9 : w.extractLsb' 9 1 = 0b0#1) (h3 : w.extractLsb' 3 1 = 0b0#1) :
    encodeWords (.lddZ (fieldD w) (fieldQ w)) = [w] := by
  have hcut : w.extractLsb' 14 2 ++ w.extractLsb' 13 1 ++ w.extractLsb' 12 1 ++ w.extractLsb' 10 2 ++
      w.extractLsb' 9 1 ++ w.extractLsb' 4 5 ++ w.extractLsb' 3 1 ++ w.extractLsb' 0 3 = w := by
    simp only [BitVec.extractLsb'_append_extractLsb'_eq_extractLsb']
    exact BitVec.extractLsb'_eq_self
  obtain ⟨hq5, hq3, hq0⟩ := fieldQ_parts (w := w)
  rw [h14, h12, h9, h3] at hcut
  rw [encodeWords, fieldD, regBits_regOfBits, hq5, hq3, hq0]
  exact congrArg (fun v : Word => [v]) hcut

end

end Sys2Proof
end

section
/-! Every decoded instruction goes back to its row of the opcode map (30_encoding.md R73), and every row's instruction
is well-formed and encodes to the words it was built from. The obligations about the opcode map follow. -/
namespace Sys2Proof

open Sys2Proof.Safety Sys2Proof.Machine

/-! ### The rows -/

/-- A decoded instruction was built by an admitted row whose fixed bits are the word's, and no admitted row before it
has them. -/
theorem decodeWord_eq_some {gk : Bool} {w k : Word} {i : Instr} (h : decodeWord gk w k = some i) :
    ∃ n : Fin opcodeTable.length, findRow gk w = some opcodeTable[n] ∧ opcodeTable[n].build w k = i ∧
      (gk || !opcodeTable[n].gk) = true ∧ opcodeTable[n].fits w = true ∧
      ∀ m < n, (gk || !opcodeTable[m].gk) = true → opcodeTable[m].fits w = false := by
  obtain ⟨r, hfind, hbuild⟩ := Option.map_eq_some_iff.1 h
  obtain ⟨hr, n, hn, rfl, hbefore⟩ := List.find?_eq_some_iff_getElem.1 hfind
  obtain ⟨hadmit, hfits⟩ := Bool.and_eq_true_iff.1 hr
  refine ⟨⟨n, hn⟩, hfind, hbuild, hadmit, hfits, fun m hm hm' => ?_⟩
  have hnot := hbefore m hm
  change (!((gk || !opcodeTable[m].gk) && opcodeTable[m].fits w)) = true at hnot
  rwa [hm', Bool.true_and, Bool.not_eq_true'] at hnot

/-- A property of every row holds once it holds of each row by name. -/
theorem opcodeTable_cases {P : Fin opcodeTable.length → Prop}
    (movw : P ⟨0, by decide⟩) (add : P ⟨1, by decide⟩) (and : P ⟨2, by decide⟩) (mov : P ⟨3, by decide⟩)
    (andi : P ⟨4, by decide⟩) (ldi : P ⟨5, by decide⟩) (adiw : P ⟨6, by decide⟩) (lds : P ⟨7, by decide⟩)
    (ldZInc : P ⟨8, by decide⟩) (ldZDec : P ⟨9, by decide⟩) (lsr : P ⟨10, by decide⟩) (ldZ : P ⟨11, by decide⟩)
    (lddZ : P ⟨12, by decide⟩) (n : Fin opcodeTable.length) : P n := by
  fin_cases n
  exacts [movw, add, and, mov, andi, ldi, adiw, lds, ldZInc, ldZDec, lsr, ldZ, lddZ]

section
variable (n : Fin opcodeTable.length) (w k : Word)

/-- The length of a row is that of the instructions it builds (R60). -/
theorem words_build : (opcodeTable[n].build w k).words = opcodeTable[n].words := by
  cases n using opcodeTable_cases <;> rfl

/-- A row is from general knowledge where the instructions it builds are (R73). -/
theorem isGk_build : isGk (opcodeTable[n].build w k) = opcodeTable[n].gk := by
  cases n using opcodeTable_cases <;> rfl

/-- The words of a row encode what the row builds from them. -/
theorem encodeWords_build (h : opcodeTable[n].fits w = true) :
    encodeWords (opcodeTable[n].build w k) = if opcodeTable[n].words = 2 then [w, k] else [w] := by
  have hbits := extractLsb'_of_and_eq (beq_iff_eq.1 h)
  cases n using opcodeTable_cases with
  | movw => exact encodeWords_movw_fields (hbits 8 8 rfl)
  | add | and | mov => exact congrArg (fun v : Word => [v]) (wordRdRr_fields (hbits 10 6 rfl))
  | andi | ldi => exact congrArg (fun v : Word => [v]) (wordRdK8_fields (hbits 12 4 rfl))
  | adiw => exact encodeWords_adiw_fields (hbits 8 8 rfl)
  | lds => exact congrArg (fun v : Word => [v, k]) (wordRd_fields (hbits 9 7 rfl) (hbits 0 4 rfl))
  | ldZInc | ldZDec | lsr | ldZ =>
    exact congrArg (fun v : Word => [v]) (wordRd_fields (hbits 9 7 rfl) (hbits 0 4 rfl))
  | lddZ => exact encodeWords_lddZ_fields (hbits 14 2 rfl) (hbits 12 1 rfl) (hbits 9 1 rfl) (hbits 3 1 rfl)

/-- What a row builds is well-formed, but for LDD with no displacement. -/
theorem wellFormed_build (hq : n.val = 12 → fieldQ w ≠ 0) : (opcodeTable[n].build w k).wellFormed = true := by
  have hpairLow {d : RegNum} {m : Nat} (h : d.val = 2 * m) : isPairLow d = true := by simp [isPairLow, h]
  cases n using opcodeTable_cases with
  | movw => exact Bool.and_eq_true_iff.2 ⟨hpairLow fieldDPair_val, hpairLow fieldRPair_val⟩
  | andi | ldi => exact decide_eq_true (fieldDHigh_val.symm ▸ Nat.le_add_right 16 _)
  | adiw =>
    exact Bool.and_eq_true_iff.2 ⟨decide_eq_true (fieldDUpperPair_val.symm ▸ Nat.le_add_right 24 _),
      hpairLow (m := 12 + (w.extractLsb' 4 2).toNat) (fieldDUpperPair_val.trans (by omega))⟩
  | lddZ => exact bne_iff_ne.2 (hq rfl)
  | add | and | mov | lds | ldZInc | ldZDec | lsr | ldZ => rfl

end

/-- LDD with no displacement has the word of LD Rd,Z (R70, 90_conflicts.md C8). -/
theorem encodeWords_lddZ_zero : ∀ d : RegNum, encodeWords (.lddZ d 0) = encodeWords (.ldZ d) := by
  decide

/-- A word of LDD that is none of LD Rd,Z has a displacement. -/
theorem fieldQ_ne_zero {w : Word} (hldd : opcodeTable[12].fits w = true) (hldZ : opcodeTable[11].fits w = false) :
    fieldQ w ≠ 0 := by
  intro hq
  have hword : encodeWords (.lddZ (fieldD w) (fieldQ w)) = [w] := encodeWords_build ⟨12, by decide⟩ w 0 hldd
  rw [hq, encodeWords_lddZ_zero] at hword
  have hw : wordRd 0b1000000#7 (fieldD w) 0b0000#4 = w := List.singleton_inj.1 hword
  have hfits : opcodeTable[11].fits (wordRd 0b1000000#7 (fieldD w) 0b0000#4) = true :=
    beq_iff_eq.2 (wordRd_and_opcodeMask 0b1000000#7 (fieldD w) 0b0000#4)
  rw [hw, hldZ] at hfits
  cases hfits

/-! ### Decode and encode -/

/-- Settles O5: row by row, the fields put back into the row's box are the word; a word of LDD has a displacement
because the row of LD Rd,Z stands before LDD's. -/
theorem encodeOfDecodedIsTheWords : Obligations.EncodeOfDecodedIsTheWords := by
  intro gk w k i h
  obtain ⟨n, -, rfl, hadmit, hfits, hbefore⟩ := decodeWord_eq_some h
  refine ⟨wellFormed_build n w k fun hn => ?displaced, ?words⟩
  case words => rw [encodeWords_build n w k hfits, words_build]
  case displaced =>
    obtain rfl : n = ⟨12, by decide⟩ := Fin.ext hn
    exact fieldQ_ne_zero hfits (hbefore ⟨11, by decide⟩ (by decide) hadmit)

theorem decodeWord_ldZDec (d : RegNum) (k : Word) :
    decodeWord true (BitVec.ofNat 16 (0x9002 ||| d.val <<< 4)) k = some (.ldZDec d) :=
  decodeWord_rd (op := 0b1001000#7) (low := 0b0010#4) (fun d _ => .ldZDec d) ⟨9, by decide⟩ (by decide) rfl rfl d k

/-- The pairs ADIW names are the upper four (R72). -/
theorem mem_upperPairs_of_wellFormed : ∀ (d : RegNum) (K : BitVec 6), (Instr.adiw d K).wellFormed = true →
    d ∈ ([24, 26, 28, 30] : List RegNum) := by
  decide

/-- Every well-formed instruction is decoded from some words. -/
theorem exists_decodeWord {i : Instr} (h : i.wellFormed = true) : ∃ w k, decodeWord true w k = some i := by
  have heven {d : RegNum} (hd : isPairLow d = true) : d.val % 2 = 0 := beq_iff_eq.1 hd
  cases i with
  | movw d r =>
    obtain ⟨hd, hr⟩ := Bool.and_eq_true_iff.1 h
    exact ⟨_, 0, decodeWord_movw (heven hd) (heven hr) true 0⟩
  | add d r => exact ⟨_, 0, decodeWord_add d r true 0⟩
  | and d r => exact ⟨_, 0, decodeWord_and d r true 0⟩
  | mov d r => exact ⟨_, 0, decodeWord_mov d r true 0⟩
  | andi d K => exact ⟨_, 0, decodeWord_andi (of_decide_eq_true h) K true 0⟩
  | ldi d K => exact ⟨_, 0, decodeWord_ldi (of_decide_eq_true h) K true 0⟩
  | adiw d K => exact ⟨_, 0, decodeWord_adiw d K (mem_upperPairs_of_wellFormed d K h) true 0⟩
  | lds d k => exact ⟨_, k, decodeWord_lds d true k⟩
  | ldZInc d => exact ⟨_, 0, decodeWord_ldZInc d 0⟩
  | ldZDec d => exact ⟨_, 0, decodeWord_ldZDec d 0⟩
  | lsr d => exact ⟨_, 0, decodeWord_lsr d 0⟩
  | ldZ d => exact ⟨_, 0, decodeWord_ldZ d 0⟩
  | lddZ d q => exact ⟨_, 0, (decodeWord_lddZ d q 0).trans (congrArg some (if_neg (bne_iff_ne.1 h)))⟩

/-- A row of one word builds the same instruction whatever word follows. -/
theorem build_of_oneWord (n : Fin opcodeTable.length) (h : opcodeTable[n].words ≠ 2) (w k k' : Word) :
    opcodeTable[n].build w k = opcodeTable[n].build w k' := by
  cases n using opcodeTable_cases with
  | lds => exact absurd rfl h
  | movw | add | and | mov | andi | ldi | adiw | ldZInc | ldZDec | lsr | ldZ | lddZ => rfl

/-- The decoder over a program image reads the instruction of the first two words, and leaves the bytes past it. -/
theorem decode_of_decodeWord {gk : Bool} {w k : Word} {i : Instr} (h : decodeWord gk w k = some i) (rest : List Byte) :
    decode gk ((if i.words = 2 then [w, k] else [w]).flatMap bytesOfWord ++ rest) = .ok (i, rest) := by
  obtain ⟨n, hfind, rfl, -⟩ := decodeWord_eq_some h
  have hword (v : Word) : wordOfBytes (v.extractLsb' 0 8) (v.extractLsb' 8 8) = v := Word.join_halves v
  rw [words_build]
  by_cases hlen : opcodeTable[n].words = 2
  · simp only [if_pos hlen, bytesOfWord, List.flatMap_cons, List.flatMap_nil, List.cons_append, List.nil_append, decode,
      hword, hfind]
  · simp only [if_neg hlen, bytesOfWord, List.flatMap_cons, List.flatMap_nil, List.cons_append, List.nil_append, decode,
      hword, hfind, build_of_oneWord n hlen w 0 k]

/-- A word that no row takes is refused by the decoder over a program image. -/
theorem decode_of_decodeWord_none {gk : Bool} {w k : Word} (h : decodeWord gk w k = none) (rest : List Byte) :
    decode gk (bytesOfWord w ++ rest) = .error .opcodeNotInSpec := by
  have hfind : findRow gk w = none := Option.map_eq_none_iff.1 h
  have hword : wordOfBytes (w.extractLsb' 0 8) (w.extractLsb' 8 8) = w := Word.join_halves w
  simp [bytesOfWord, decode, hword, hfind]

/-- The instruction read from the bytes of two words is the one the words decode to. -/
theorem decodeWord_of_decode {gk : Bool} {w k : Word} {i : Instr} {rest : List Byte}
    (h : decode gk (bytesOfWord w ++ bytesOfWord k) = .ok (i, rest)) : decodeWord gk w k = some i := by
  cases hd : decodeWord gk w k with
  | none =>
    rw [decode_of_decodeWord_none hd] at h
    cases h
  | some j =>
    have hj : ∃ rest', decode gk (bytesOfWord w ++ bytesOfWord k) = .ok (j, rest') := by
      by_cases hlen : j.words = 2
      · exact ⟨[], by simpa [hlen] using decode_of_decodeWord hd []⟩
      · exact ⟨bytesOfWord k, by simpa [hlen] using decode_of_decodeWord hd (bytesOfWord k)⟩
    obtain ⟨rest', hj⟩ := hj
    rw [hj] at h
    cases h
    rfl

/-- What the opcode table's numbering decodes, its two words decode. -/
theorem decodeWord_of_decodeTableWord {nbits w : Nat} {i : Instr} (h : decodeTableWord nbits w = some i) :
    decodeWord true ((BitVec.ofNat 32 (w % 2 ^ nbits)).extractLsb' 0 16)
      ((BitVec.ofNat 32 (w % 2 ^ nbits)).extractLsb' 16 16) = some i := by
  simp only [decodeTableWord] at h
  split at h
  · next j rest hj =>
    cases h
    exact decodeWord_of_decode hj
  · cases h

/-- Settles O4: the instruction is decoded from some words, and those words are its encoding. -/
theorem decodeOfEncodeIsTheInstruction : Obligations.DecodeOfEncodeIsTheInstruction := by
  intro i rest hi
  obtain ⟨w, k, hdecode⟩ := exists_decodeWord hi
  rw [encode, (encodeOfDecodedIsTheWords true w k i hdecode).2]
  exact decode_of_decodeWord hdecode rest

/-! ### The encoder as arithmetic -/

/-- Settles O8: the words of R79 decode to their instructions, so they are what these encode to; LDD with no
displacement, whose word decodes to LD Rd,Z, is encoded as that. -/
theorem encoderIsTheOperandArithmetic : Obligations.EncoderIsTheOperandArithmetic := by
  have hone {w : Word} {i : Instr} (h : decodeWord true w 0 = some i) (hi : i.words = 1) : encodeWords i = [w] := by
    rw [(encodeOfDecodedIsTheWords true w 0 i h).2, hi]
    rfl
  refine ⟨?rdRr, ?rdK8, ?pairK6, ?pairPair, ?lds, ?rd, ?rdZq⟩
  case rdRr =>
    exact fun d r => ⟨hone (decodeWord_add d r true 0) rfl, hone (decodeWord_and d r true 0) rfl,
      hone (decodeWord_mov d r true 0) rfl⟩
  case rdK8 =>
    exact fun d K hd => ⟨hone (decodeWord_andi hd K true 0) rfl, hone (decodeWord_ldi hd K true 0) rfl⟩
  case pairK6 =>
    intro d K hd heven
    have hwf : (Instr.adiw d K).wellFormed = true :=
      Bool.and_eq_true_iff.2 ⟨decide_eq_true hd, beq_iff_eq.2 heven⟩
    exact hone (decodeWord_adiw d K (mem_upperPairs_of_wellFormed d K hwf) true 0) rfl
  case pairPair => exact fun d r hd hr => hone (decodeWord_movw hd hr true 0) rfl
  case lds => exact fun d k => (encodeOfDecodedIsTheWords true _ k _ (decodeWord_lds d true k)).2
  case rd =>
    exact fun d => ⟨hone (decodeWord_lsr d 0) rfl, hone (decodeWord_ldZ d 0) rfl, hone (decodeWord_ldZInc d 0) rfl,
      hone (decodeWord_ldZDec d 0) rfl⟩
  case rdZq =>
    intro d q
    have hdecode := decodeWord_lddZ d q 0
    by_cases hq : q = 0
    · rw [if_pos hq] at hdecode
      rw [← hone hdecode rfl, hq, encodeWords_lddZ_zero]
    · rw [if_neg hq] at hdecode
      exact hone hdecode rfl

/-! ### The rows among themselves -/

/-- Settles O6: a row before LDD's and any row before it differ in a bit that both fix, and so does LDD's row and any
row before LD Rd,Z's. -/
theorem opcodeRowsAreDisjointButLdAndLdd : Obligations.OpcodeRowsAreDisjointButLdAndLdd := by
  intro w m n p q hm hn hmn hp hq
  obtain ⟨hmlen, rfl⟩ := List.getElem?_eq_some_iff.1 hm
  obtain ⟨hnlen, rfl⟩ := List.getElem?_eq_some_iff.1 hn
  have hagree := OpRow.fits_agree hp hq
  have hlen : opcodeTable.length = 13 := rfl
  obtain hn12 | rfl : n < 12 ∨ n = 12 := by omega
  · exact absurd hagree (opcodeTable_rows_differ ⟨n, hnlen⟩ hn12 ⟨m, hmlen⟩ hmn)
  · obtain hm11 | rfl : m < 11 ∨ m = 11 := by omega
    · exact absurd hagree (lddRow_differs ⟨m, hm11⟩)
    · exact ⟨rfl, rfl⟩

/-- The only row of two words is that of LDS. -/
theorem words_eq_two_iff : ∀ n : Fin opcodeTable.length, opcodeTable[n].words = 2 ↔ n.val = 7 := by
  decide

/-- Settles O7: only the row of LDS is two words long, and it takes every word with its fixed bits. -/
theorem lengthIsToldByTheFirstWord : Obligations.LengthIsToldByTheFirstWord := by
  intro gk w k i h
  obtain ⟨n, hfind, rfl, -, hfits, -⟩ := decodeWord_eq_some h
  have hdecode (k' : Word) : decodeWord gk w k' = some (opcodeTable[n].build w k') := by rw [decodeWord, hfind]; rfl
  have hlds (hn : n.val = 7) : n = ⟨7, by decide⟩ := Fin.ext hn
  refine ⟨Instr.words_one_or_two _, ⟨fun htwo => ?ldsBits, fun hbits => ?twoWords⟩, fun htwo => ?operand,
    fun hone k' => ?same⟩
  case ldsBits =>
    obtain rfl := hlds ((words_eq_two_iff n).1 ((words_build n w k).symm.trans htwo))
    exact beq_iff_eq.1 hfits
  case twoWords =>
    have hldsRow := decodeWord_of_fits (gk := gk) ⟨7, by decide⟩ (by decide) (Bool.or_true gk) (beq_iff_eq.2 hbits) k
    rw [Option.some.inj ((hdecode k).symm.trans hldsRow)]
    rfl
  case operand =>
    obtain rfl := hlds ((words_eq_two_iff n).1 ((words_build n w k).symm.trans htwo))
    exact ⟨fieldD w, hdecode⟩
  case same =>
    rw [words_build] at hone
    rw [hdecode, build_of_oneWord n (by omega) w k' k]

/-- Settles O9: a row of the source takes its words whether the rows from general knowledge are admitted or not, and
those rows are the ones that build their instructions. -/
theorem admitGkDropsOnlyGkRows : Obligations.AdmitGkDropsOnlyGkRows := by
  have hsource : ∀ n : Fin opcodeTable.length, opcodeTable[n].gk = false → n.val < 12 := by decide
  intro w k i
  constructor
  · intro h
    obtain ⟨n, -, rfl, hadmit, hfits, -⟩ := decodeWord_eq_some h
    have hgk : opcodeTable[n].gk = false := by simpa using hadmit
    exact ⟨decodeWord_of_fits n (hsource n hgk) rfl hfits k, (isGk_build n w k).trans hgk⟩
  · rintro ⟨h, hi⟩
    obtain ⟨n, -, rfl, -, hfits, -⟩ := decodeWord_eq_some h
    have hgk : opcodeTable[n].gk = false := (isGk_build n w k).symm.trans hi
    exact decodeWord_of_fits n (hsource n hgk) (by rw [hgk]; rfl) hfits k

/-- Settles O3: the sample words are words of R79 for their operands; no row takes the others. -/
theorem sampleWordsDecode : Obligations.SampleWordsDecode := fun k =>
  ⟨decodeWord_add 16 17 true k, decodeWord_adiw 30 0x20 (by decide) true k,
    decodeWord_andi (d := 17) (by decide) 0xA5 true k, decodeWord_movw (d := 30) (r := 24) rfl rfl true k,
    decodeWord_lds 2 true k, decodeWord_lsr 31 k, decodeWord_ldZDec 3 k, decodeWord_ldZ 0 k, decodeWord_lddZ 31 63 k,
    rfl, rfl, rfl⟩

end Sys2Proof
end

section
/-! A word placed where a step fetches is what it fetches, and an image is what program memory holds
(20_memory.md R41). -/
namespace Sys2Proof.Machine

section
variable {s : State} (hpm : s.pm.wf = true) (nbits w : Nat)
include hpm

/-- The first word of a placed instruction stands at pc. -/
theorem State.withFetchWord_pmWord_pc :
    (s.withFetchWord nbits w).pmWord s.pc = (BitVec.ofNat 32 (w % 2 ^ nbits)).extractLsb' 0 16 := by
  have hwf := s.placeWord_pm_wf s.pc ((BitVec.ofNat 32 (w % 2 ^ nbits)).extractLsb' 0 16) hpm
  rw [State.withFetchWord, State.placeInstr, State.pmWord_placeWord _ hwf, if_neg (by omega),
    State.pmWord_placeWord _ hpm, if_pos rfl, Word.join_halves]

/-- The second word of a placed instruction stands after the first. -/
theorem State.withFetchWord_pmWord_pc_succ :
    (s.withFetchWord nbits w).pmWord (s.pc + 1) = (BitVec.ofNat 32 (w % 2 ^ nbits)).extractLsb' 16 16 := by
  have hwf := s.placeWord_pm_wf s.pc ((BitVec.ofNat 32 (w % 2 ^ nbits)).extractLsb' 0 16) hpm
  rw [State.withFetchWord, State.placeInstr, State.pmWord_placeWord _ hwf, if_pos rfl, Word.join_halves]

end

/-- Settles O10: the words placed are the words fetched, and no check of fetch fails. -/
theorem placedInstructionRunsNext : Obligations.PlacedInstructionRunsNext := by
  intro s nbits w i hpm hcore hgk hpc hav hdecode
  refine step_of_fetch_ok (State.fetch_ok_iff.2 ⟨hcore, Nat.lt_of_succ_lt hpc, ?decoded, hav, fun _ => hpc⟩)
  case decoded =>
    show decodeWord s.cfg.admitGk ((s.withFetchWord nbits w).pmWord s.pc)
      ((s.withFetchWord nbits w).pmWord (s.pc + 1)) = some i
    rw [hgk, State.withFetchWord_pmWord_pc hpm, State.withFetchWord_pmWord_pc_succ hpm]
    exact decodeWord_of_decodeTableWord hdecode

/-! ### Images -/

/-- Past its end and before its beginning an image leaves program memory. -/
theorem State.loadImage_read_outside (bs : List Byte) : ∀ (s : State) (base a : Nat), s.pm.wf = true →
    (a < base ∨ base + bs.length ≤ a) → (s.loadImage base bs).pm.read a = s.pm.read a := by
  induction bs with
  | nil => exact fun _ _ _ _ _ => rfl
  | cons b bs ih =>
    intro s base a hpm ha
    rw [List.length_cons] at ha
    rw [State.loadImage, ih _ _ _ (Memory.write_wf _ hpm _ _) (by omega), Memory.read_write _ hpm, if_neg (by omega)]

/-- Byte n of an image is the byte n past its base. -/
theorem State.loadImage_read (bs : List Byte) : ∀ (s : State) (base n : Nat) (h : n < bs.length), s.pm.wf = true →
    (s.loadImage base bs).pm.read (base + n) = bs[n] := by
  induction bs with
  | nil => exact fun _ _ _ h => nomatch h
  | cons b bs ih =>
    intro s base n h hpm
    have hwf := Memory.write_wf s.pm hpm base b
    rw [State.loadImage]
    cases n with
    | zero =>
      rw [Nat.add_zero base, State.loadImage_read_outside bs _ _ _ hwf (.inl (by omega)), Memory.read_write _ hpm,
        if_pos rfl]
      rfl
    | succ n =>
      have hn : base + (n + 1) = base + 1 + n := by omega
      rw [hn, ih _ (base + 1) n (Nat.lt_of_succ_lt_succ h) hwf]
      rfl

/-- Settles O11: a word is its two bytes of the image, the low one first. -/
theorem imageWordsAreLowByteFirst : Obligations.ImageWordsAreLowByteFirst := by
  intro s image hpm
  refine ⟨fun a h => ?word, fun a h => State.loadImage_read_outside image s 0 a hpm (.inr (by omega)),
    State.loadImage_pm_wf image s 0 hpm⟩
  case word =>
    have hbyte (n : Nat) (hn : n < image.length) : (s.loadImage 0 image).pm.read n = image[n] := by
      simpa using State.loadImage_read image s 0 n hn hpm
    rw [State.pmWord, hbyte _ h, hbyte _ (Nat.lt_of_succ_lt h)]

end Sys2Proof.Machine
end

section
/-! The obligations about a step that completes: its length, the invariant it keeps, and what runs of steps keep
(10_state.md R24, R25; 70_reset_and_hazards.md R183, R184). -/
namespace Sys2Proof.Machine

open Sys2Proof.Safety

/-! ### One step -/

/-- Settles O1: the checks are those under which fetch gives the instruction. -/
theorem stepRunsDecodedInstruction : Obligations.StepRunsDecodedInstruction :=
  fun _ _ hcore hpc hi hav hlen => step_of_fetch_ok (State.fetch_ok_iff.2 ⟨hcore, hpc, hi, hav, hlen⟩)

/-- Settles O38: what fetch checked, and the length that every instruction adds to pc. -/
theorem stepAddsTheLengthToPc : Obligations.StepAddsTheLengthToPc := by
  intro s t h
  obtain ⟨i, hfetch, hexec⟩ := step_next h
  obtain ⟨hcore, hpc, hi, hav, hsecond⟩ := State.fetch_ok_iff.1 hfetch
  have hadvance := (exec_commonEffect hexec).pc
  refine ⟨i, hi, hexec, hav, hcore, hadvance, ?inside, ?forward⟩
  case inside =>
    obtain hone | htwo := Instr.words_one_or_two i
    · omega
    · have := hsecond htwo
      omega
  case forward =>
    have := Instr.words_one_or_two i
    omega

/-- A step that completes has the common effect of an instruction that it ran inside program memory. -/
theorem step_commonEffect {s t : State} (h : step s = .next t) :
    ∃ i, CommonEffect i s t ∧ t.pc ≤ s.cfg.flashWords := by
  obtain ⟨i, -, hexec, -, -, -, hinside, -⟩ := stepAddsTheLengthToPc s t h
  exact ⟨i, exec_commonEffect hexec, hinside⟩

/-- Settles O39: a step leaves every part of the invariant but the bound on pc, which fetch has checked. -/
theorem stepKeepsTheInvariant : Obligations.StepKeepsTheInvariant := by
  intro s t ⟨hcfg, _, hrampd, hpm, hram, hclass⟩ h
  obtain ⟨i, he, hinside⟩ := step_commonEffect h
  unfold MachineInv
  rw [he.cfg, he.rampd, he.pm, he.ram]
  exact ⟨hcfg, hinside, hrampd, hpm, hram, hclass⟩

/-! ### Launch states -/

/-- A Ram address placed in data memory leaves only Ram addresses there (20_memory.md R44). -/
theorem State.placeByte_ram_class {s : State} {a : Nat} (v : Byte) (hclass : ∀ c ∈ s.ram, s.cfg.classify c.1 = .ram)
    (ha : s.cfg.classify a = .ram) : ∀ c ∈ (s.placeByte a v).ram, s.cfg.classify c.1 = .ram := by
  intro c hc
  obtain rfl | hold := Memory.mem_write s.ram a v c hc
  · exact ha
  · exact hclass c hold

/-- Settles O40: the launch operations keep both memories canonical, and the byte placed stands at a Ram address. -/
theorem launchStatesHaveTheInvariant : Obligations.LaunchStatesHaveTheInvariant := by
  refine ⟨⟨⟨?resetCfg, Nat.zero_le _, Nat.one_pos, rfl, rfl, nofun⟩, rfl⟩, ?placed⟩
  case resetCfg => decide
  case placed =>
    rintro s i v f a w x b ⟨⟨hcfg, hpc, hrampd, hpm, hram, hclass⟩, hentry⟩ hx
    exact ⟨⟨hcfg, hpc, hrampd, State.placeWord_pm_wf ((s.setReg i v).setFlags f) a w hpm,
      Memory.write_wf s.ram hram x b, State.placeByte_ram_class b hclass hx⟩, hentry⟩

/-! ### Runs -/

theorem storesNothing_refl (s : State) : StoresNothing s s := ⟨fun _ => rfl, fun _ => rfl, fun _ => rfl, rfl, rfl⟩

theorem storesNothing_trans {s t u : State} (hst : StoresNothing s t) (htu : StoresNothing t u) :
    StoresNothing s u := by
  obtain ⟨hword, hpm, hram, hrampd, hcfg⟩ := hst
  obtain ⟨hword', hpm', hram', hrampd', hcfg'⟩ := htu
  exact ⟨fun a => (hword' a).trans (hword a), fun a => (hpm' a).trans (hpm a), fun a => (hram' a).trans (hram a),
    hrampd'.trans hrampd, hcfg'.trans hcfg⟩

/-- A run of one step more that completes is a step and a run from where it leads. -/
theorem run_succ_next {M : Host.Core} {n : Nat} {s t : M.State} (h : M.run (n + 1) s = .next t) :
    ∃ u, M.step s = .next u ∧ M.run n u = .next t := by
  rw [Host.Core.run] at h
  split at h
  · next u hu => exact ⟨u, hu, h⟩
  · cases h
  · cases h

/-- Settles O41, by induction on the number of steps from the common effect of each. -/
theorem runsAreStraightLineAndStoreNothing : Obligations.RunsAreStraightLineAndStoreNothing := by
  intro n
  induction n with
  | zero =>
    intro s t h
    cases h
    exact ⟨Nat.le_refl _, Nat.le_refl _, storesNothing_refl s, Nat.le_refl _, Nat.le_refl _, rfl, rfl⟩
  | succ n ih =>
    intro s t h
    obtain ⟨u, hstep, hrun⟩ : ∃ u : State, step s = .next u ∧ _ := run_succ_next h
    obtain ⟨i, he, -⟩ := step_commonEffect hstep
    obtain ⟨hlow, hhigh, hstores, hdrawsLow, hdrawsHigh, hI, hT⟩ := ih u t hrun
    have hpc := he.pc
    have hwords := Instr.words_one_or_two i
    have hdraws := he.draws
    exact ⟨by omega, by omega, storesNothing_trans (storesNothing_of_commonEffect he) hstores, by omega, by omega,
      hI.trans he.flagI, hT.trans he.flagT⟩

/-- A run that has not reached END goes on with a step. -/
theorem runToEnd_succ_of_pc_ne {n : Nat} {s t : State} (hpc : s.pc ≠ s.cfg.endAddr)
    (h : runToEnd (n + 1) s = some t) : ∃ u, step s = .next u ∧ runToEnd n u = some t := by
  rw [runToEnd, if_neg hpc] at h
  split at h
  · next u hu => exact ⟨u, hu, h⟩
  · cases h
  · cases h

theorem runToEnd_succ_of_step {n : Nat} {s u : State} (hpc : s.pc ≠ s.cfg.endAddr) (hstep : step s = .next u) :
    runToEnd (n + 1) s = runToEnd n u := by
  rw [runToEnd, if_neg hpc, hstep]

theorem runToEnd_of_pc_eq {s : State} (hpc : s.pc = s.cfg.endAddr) (n : Nat) : runToEnd n s = some s := by
  cases n <;> rw [runToEnd, if_pos hpc]

/-- A run that ends had not gone past END, ends at END on the same device, and takes a step for each word up to END at
most: every step adds a word or more to pc (R183). -/
theorem runToEnd_ends_at_endAddr (n : Nat) : ∀ {s t : State}, runToEnd n s = some t →
    s.pc ≤ s.cfg.endAddr ∧ t.pc = s.cfg.endAddr ∧ t.cfg = s.cfg ∧ runToEnd (s.cfg.endAddr - s.pc) s = some t := by
  induction n with
  | zero =>
    intro s t h
    obtain ⟨hpc, rfl⟩ : s.pc = s.cfg.endAddr ∧ s = t := by simpa [runToEnd] using h
    exact ⟨hpc.le, hpc, rfl, runToEnd_of_pc_eq hpc _⟩
  | succ n ih =>
    intro s t h
    by_cases hpc : s.pc = s.cfg.endAddr
    · obtain rfl : s = t := Option.some.inj ((runToEnd_of_pc_eq hpc _).symm.trans h)
      exact ⟨hpc.le, hpc, rfl, runToEnd_of_pc_eq hpc _⟩
    · obtain ⟨u, hstep, hrun⟩ := runToEnd_succ_of_pc_ne hpc h
      obtain ⟨i, he, -⟩ := step_commonEffect hstep
      obtain ⟨hle, hend, hcfg, hfuel⟩ := ih hrun
      have hu := he.pc
      have hwords := Instr.words_one_or_two i
      rw [he.cfg] at hle hend hcfg hfuel
      refine ⟨by omega, hend, hcfg, ?_⟩
      obtain ⟨m, hm⟩ : ∃ m, s.cfg.endAddr - s.pc = m + 1 := ⟨s.cfg.endAddr - s.pc - 1, by omega⟩
      rw [hm, runToEnd_succ_of_step hpc hstep]
      exact runToEnd_mono hfuel (by omega)

/-- Settles O42: a run that ends does so within END - pc steps, from a pc that is not past END. -/
theorem runsEndAtEndOrNever : Obligations.RunsEndAtEndOrNever := by
  intro n s
  refine ⟨fun t h => (runToEnd_ends_at_endAddr n h).2, fun hpast => Option.eq_none_iff_forall_not_mem.2 fun t h => ?_⟩
  exact hpast.not_ge (runToEnd_ends_at_endAddr n h).1

end Sys2Proof.Machine
end

section
/-! The flags of ADD, ADIW, AND, ANDI and LSR read as arithmetic (40_arithmetic.md R101, R103; 41_logic.md R112;
43_shift.md R140): each flag bit is a bound on the operands as numbers. -/
namespace Sys2Proof.Machine

/-! ### Bits as bounds -/

theorem getElem_eq_true_iff_div {n : Nat} (x : BitVec n) (i : Nat) (hi : i < n) :
    x[i] = true ↔ x.toNat / 2 ^ i % 2 = 1 := by
  rw [BitVec.getElem_eq_testBit_toNat, Nat.testBit_eq_decide_div_mod_eq, decide_eq_true_iff]

theorem byte_bit7_iff (a : Byte) : a[7] = true ↔ 128 ≤ a.toNat := by
  rw [getElem_eq_true_iff_div]
  omega

theorem byte_bit3_iff (a : Byte) : a[3] = true ↔ 8 ≤ a.toNat % 16 := by
  rw [getElem_eq_true_iff_div]
  omega

theorem word_bit15_iff (w : Word) : w[15] = true ↔ 32768 ≤ w.toNat := by
  rw [getElem_eq_true_iff_div]
  omega

/-- A signed byte is its number, less 256 where its highest bit is set. -/
theorem byte_toInt (a : Byte) : a.toInt = if 128 ≤ a.toNat then (a.toNat : Int) - 256 else a.toNat := by
  rw [BitVec.toInt_eq_toNat_cond]
  split <;> split <;> omega

/-- A signed word is its number, less 65536 where its highest bit is set. -/
theorem word_toInt (w : Word) : w.toInt = if 32768 ≤ w.toNat then (w.toNat : Int) - 65536 else w.toNat := by
  rw [BitVec.toInt_eq_toNat_cond]
  split <;> split <;> omega

/-- S is set where just one of N and V is (10_state.md R27). -/
theorem xor_eq_true_iff {n v : Bool} : (n ^^ v) = true ↔ ¬(n = true ↔ v = true) := by
  rw [Bool.xor_iff_ne, ne_eq, Bool.eq_iff_iff]

/-! ### ADD -/

section
variable (a b : Byte) (f : Flags)

theorem addFlags_c_iff : (addFlags a b (a + b) f).c = true ↔ 256 ≤ a.toNat + b.toNat := by
  simp only [addFlags, Bool.or_eq_true, Bool.and_eq_true, Bool.not_eq_true', ← Bool.not_eq_true, byte_bit7_iff,
    BitVec.toNat_add]
  omega

theorem addFlags_h_iff : (addFlags a b (a + b) f).h = true ↔ 16 ≤ a.toNat % 16 + b.toNat % 16 := by
  simp only [addFlags, Bool.or_eq_true, Bool.and_eq_true, Bool.not_eq_true', ← Bool.not_eq_true, byte_bit3_iff,
    BitVec.toNat_add]
  omega

theorem addFlags_v_iff : (addFlags a b (a + b) f).v = true ↔ a.toInt + b.toInt < -128 ∨ 127 < a.toInt + b.toInt := by
  simp only [addFlags, Bool.or_eq_true, Bool.and_eq_true, Bool.not_eq_true', ← Bool.not_eq_true, byte_bit7_iff,
    BitVec.toNat_add, byte_toInt]
  omega

theorem addFlags_n_iff : (addFlags a b (a + b) f).n = true ↔ 128 ≤ (a + b).toNat := byte_bit7_iff _

theorem addFlags_s_iff : (addFlags a b (a + b) f).s = true ↔ a.toInt + b.toInt < 0 := by
  have hxor : (addFlags a b (a + b) f).s = ((addFlags a b (a + b) f).n ^^ (addFlags a b (a + b) f).v) := rfl
  rw [hxor, xor_eq_true_iff, addFlags_n_iff, addFlags_v_iff, BitVec.toNat_add, byte_toInt, byte_toInt]
  omega

end

/-- Settles O13: the flags of the state ADD leads to, each as a bound on the operands. -/
theorem addFlagsMeanCarryAndOverflow : Obligations.AddFlagsMeanCarryAndOverflow := by
  intro d r s t h
  cases (exec_add d r s).symm.trans h
  simp only [State.advance_reg, State.setFlags_reg, State.setReg_reg_self, State.advance_flags, State.setFlags_flags]
  exact ⟨addFlags_c_iff _ _ _, addFlags_h_iff _ _ _, addFlags_v_iff _ _ _, addFlags_s_iff _ _ _, addFlags_n_iff _ _ _,
    beq_iff_eq⟩

/-! ### ADIW -/

section
variable (w : Word) (K : BitVec 6) (f : Flags)

/-- The sum of ADIW as a number, its constant extended with zeros (R102). -/
theorem add_setWidth_toNat : (w + K.setWidth 16).toNat = (w.toNat + K.toNat) % 65536 := by
  rw [BitVec.toNat_add, BitVec.toNat_setWidth_of_le (by decide)]

theorem adiwFlags_c_iff : (adiwFlags w (w + K.setWidth 16) f).c = true ↔ 65536 ≤ w.toNat + K.toNat := by
  simp only [adiwFlags, Bool.and_eq_true, Bool.not_eq_true', ← Bool.not_eq_true, word_bit15_iff, add_setWidth_toNat]
  omega

theorem adiwFlags_v_iff :
    (adiwFlags w (w + K.setWidth 16) f).v = true ↔ w.toNat ≤ 0x7FFF ∧ 0x8000 ≤ w.toNat + K.toNat := by
  simp only [adiwFlags, Bool.and_eq_true, Bool.not_eq_true', ← Bool.not_eq_true, word_bit15_iff, add_setWidth_toNat]
  omega

theorem adiwFlags_s_iff : (adiwFlags w (w + K.setWidth 16) f).s = true ↔ w.toInt + (K.toNat : Int) < 0 := by
  have hxor : (adiwFlags w (w + K.setWidth 16) f).s =
      ((w + K.setWidth 16)[15] ^^ (adiwFlags w (w + K.setWidth 16) f).v) := rfl
  rw [hxor, xor_eq_true_iff, word_bit15_iff, adiwFlags_v_iff, add_setWidth_toNat, word_toInt]
  omega

end

/-- Settles O15: the flags of the state ADIW leads to, each as a bound on the pair and the constant. -/
theorem adiwFlagsMeanCarryAndOverflow : Obligations.AdiwFlagsMeanCarryAndOverflow := by
  intro d K s t _ h
  cases (exec_adiw d K s).symm.trans h
  exact ⟨adiwFlags_c_iff _ _ _, adiwFlags_v_iff _ _ _, adiwFlags_s_iff _ _ _⟩

/-! ### AND and ANDI -/

/-- The and of a byte with another has no bit the byte has not. -/
theorem and_or_self (a b : Byte) : (a &&& b) ||| a = a := by
  ext i hi
  rw [BitVec.getElem_or, BitVec.getElem_and]
  exact sup_eq_right.2 inf_le_left

/-- A zero result is not negative. -/
theorem logicFlags_not_zero_and_negative (res : Byte) (f : Flags) :
    ¬((logicFlags res f).z = true ∧ (logicFlags res f).n = true) := by
  rintro ⟨hz, hn⟩
  obtain rfl : res = 0 := beq_iff_eq.1 hz
  cases hn

/-- Settles O18: the laws of the write that AND and ANDI share. -/
theorem logicInstructionsObeyTheirLaws : Obligations.LogicInstructionsObeyTheirLaws := by
  intro d r s t h
  cases (exec_and d r s).symm.trans h
  rw [State.putLogic_reg_self, State.putLogic_flags]
  exact ⟨and_or_self _ _, Bool.xor_false _, rfl, logicFlags_not_zero_and_negative _ _, exec_andi d (s.reg r) s⟩

/-! ### LSR -/

/-- A shift right by one halves, bit 0 being the remainder. -/
theorem byte_halves (a : Byte) : a.toNat = 2 * (a >>> 1).toNat + if a[0] = true then 1 else 0 := by
  rw [BitVec.toNat_ushiftRight, Nat.shiftRight_eq_div_pow]
  split
  case isTrue h =>
    rw [getElem_eq_true_iff_div] at h
    omega
  case isFalse h =>
    rw [getElem_eq_true_iff_div] at h
    omega

/-- Settles O20: C is bit 0 of the old value; with N cleared, V and then S are C. -/
theorem lsrHalvesAndKeepsRemainder : Obligations.LsrHalvesAndKeepsRemainder := by
  intro d s t h
  cases (exec_lsr d s).symm.trans h
  refine ⟨?halves, Bool.false_xor _, (Bool.false_xor _).trans (Bool.false_xor _)⟩
  case halves =>
    rw [State.advance_reg, State.setFlags_reg, State.setReg_reg_self]
    exact byte_halves (s.reg d)

end Sys2Proof.Machine
end

section
/-! The obligations about data space and the loads that read it (20_memory.md R46, R47; 42_load.md R121 to R124). -/
namespace Sys2Proof.Machine

open Sys2Proof.Safety

/-! ### The classic map -/

/-- A map's first range classifies the addresses it holds, the ranges after it the others. -/
theorem classify_cons {c : Config} {r : Region} {rs : List Region} (hmap : c.dsmap = r :: rs) (a : Nat) :
    c.classify a = if r.holds a then r.classAt a else { c with dsmap := rs }.classify a := by
  rw [Config.classify, hmap, List.find?_cons]
  cases r.holds a <;> rfl

theorem holds_iff (r : Region) (a : Nat) : r.holds a = true ↔ r.lo ≤ a ∧ a ≤ r.hi := by
  rw [Region.holds, Bool.and_eq_true, decide_eq_true_iff, decide_eq_true_iff]

/-- The classic map in the order of its ranges (R47). -/
theorem classify_classicMap {c : Config} {ramEnd : Nat} (hmap : c.dsmap = classicMap ramEnd) (a : Nat) :
    c.classify a =
      if 0 ≤ a ∧ a ≤ 0x1F then .reg (Fin.ofNat 32 (0 + (a - 0))) else
      if 0x20 ≤ a ∧ a ≤ 0x5E then .io else
      if 0x5F ≤ a ∧ a ≤ 0x5F then .sreg else
      if 0x60 ≤ a ∧ a ≤ ramEnd then .ram else .unmapped := by
  rw [classify_cons hmap, classify_cons rfl, classify_cons rfl, classify_cons rfl]
  simp only [holds_iff]
  rfl

/-- Settles O25: each range of the classic map, which the ranges before it do not meet. -/
theorem classicMapClassifiesEveryAddress : Obligations.ClassicMapClassifiesEveryAddress := by
  intro c ramEnd a hmap hend
  rw [classify_classicMap hmap]
  refine ⟨fun h => ?reg, fun hlo hhi => ?io, fun h => ?sreg, fun hlo hhi => ?ram, fun h => ?unmapped⟩
  case reg =>
    rw [if_pos (by omega)]
    exact congrArg AddrClass.reg (Fin.ext (by simpa using h))
  case io => rw [if_neg (by omega), if_pos (by omega)]
  case sreg => rw [if_neg (by omega), if_neg (by omega), if_pos (by omega)]
  case ram => rw [if_neg (by omega), if_neg (by omega), if_neg (by omega), if_pos (by omega)]
  case unmapped => rw [if_neg (by omega), if_neg (by omega), if_neg (by omega), if_neg (by omega)]

/-! ### LD Rd,-Z -/

/-- Z - 1 as a number: it wraps at 16 bits (R123). -/
theorem State.z_sub_one_toNat (s : State) :
    (s.z - 1).toNat = ((s.reg 31).toNat * 256 + (s.reg 30).toNat + 65535) % 65536 := by
  rw [BitVec.toNat_sub, ← State.z_toNat, Nat.add_comm]
  rfl

/-- The state in which LD Rd,-Z reads: Z is decremented already (log 17). -/
def decremented (s : State) : State := s.setPair zLow (s.z - 1)

theorem decremented_z (s : State) : (decremented s).z = s.z - 1 := s.setPair_pair zLow (s.z - 1)

/-- The decremented Z, read by its halves. -/
theorem decremented_z_toNat (s : State) :
    ((decremented s).reg 31).toNat * 256 + ((decremented s).reg 30).toNat = (s.z - 1).toNat := by
  rw [← State.z_toNat, decremented_z]

/-- Decrementing Z writes its two halves and nothing else. -/
theorem regsSameExcept_decremented (s : State) : RegsSameExcept [30, 31] s (decremented s) :=
  regsSameExcept_setPair s zLow (s.z - 1)

/-- Only the halves of Z read otherwise through data space once Z is decremented. -/
theorem dataReads_decremented {s : State} {a : Nat} {v : Byte} (h : DataReads s a v)
    (h30 : s.cfg.classify a ≠ .reg 30) (h31 : s.cfg.classify a ≠ .reg 31) : DataReads (decremented s) a v := by
  have hcfg : (decremented s).cfg = s.cfg := rfl
  unfold DataReads at h ⊢
  rw [hcfg]
  cases hclass : s.cfg.classify a with
  | reg i =>
    rw [hclass] at h h30 h31
    have hkept : i ∉ ([30, 31] : List RegNum) := by
      simpa using And.intro (mt (congrArg AddrClass.reg) h30) (mt (congrArg AddrClass.reg) h31)
    exact h.trans (regsSameExcept_decremented s i hkept).symm
  | sreg | rampd | ram | io | unmapped =>
    rw [hclass] at h
    exact h

/-- What LD Rd,-Z does where data space, Z being decremented, reads as v at the new Z. -/
theorem exec_ldZDec_of_dataReads {d : RegNum} {s : State} {v : Byte} (h30 : d ≠ 30) (h31 : d ≠ 31)
    (hz : s.cfg.rampzBits = 0) (h : DataReads (decremented s) (s.z - 1).toNat v) :
    ∃ t, exec (.ldZDec d) s = .next t ∧ t.reg d = v ∧ (t.reg 31).toNat * 256 + (t.reg 30).toNat = (s.z - 1).toNat ∧
      t.flags = s.flags ∧ t.pc = s.pc + 1 ∧ RegsSameExcept [d, 30, 31] s t ∧ StoresNothing s t ∧
      t.draws = s.draws + drawsOf s (s.z - 1).toNat := by
  obtain ⟨hreg, hflags, hpc, hregs, hmem, hdraws⟩ := loadsByte_loaded (decremented s) d (s.z - 1).toNat v 1
  refine ⟨_, (exec_ldZDec s h30 h31).trans (loadThroughZ_of_dataReads (s := decremented s) hz id h),
    hreg, ?z, hflags, hpc, ?regs, hmem, hdraws⟩
  case z =>
    rw [← decremented_z_toNat, ← hregs 30 (by simpa using h30.symm), ← hregs 31 (by simpa using h31.symm)]
    rfl
  case regs =>
    have hwritten := (regsSameExcept_decremented s).trans hregs
    exact fun j hj => hwritten j fun hmem => hj (List.perm_append_comm.mem_iff.1 hmem)

/-- Settles O29: the word by its format, the load by what LD Rd,-Z does at an address that reads alike before and after
the decrement. -/
theorem ldZDecFollowsItsRule : Obligations.LdZDecFollowsItsRule := by
  intro d s
  refine ⟨decodeWord_ldZDec d, fun _ => rfl, exec_ldZDec_halfOfZ s, fun h30 h31 hz => ?_⟩
  rw [← State.z_sub_one_toNat]
  refine ⟨fun v h hr30 hr31 => exec_ldZDec_of_dataReads h30 h31 hz (dataReads_decremented h hr30 hr31), fun h => ?_⟩
  exact (exec_ldZDec s h30 h31).trans (loadThroughZ_unmapped (s := decremented s) hz id h)

/-- The address of a register reads as the register. -/
theorem dataReads_reg {s : State} {a : Nat} {i : RegNum} (h : s.cfg.classify a = .reg i) : DataReads s a (s.reg i) := by
  simp only [DataReads, h]

/-- Settles O30: at the address of a half of Z, LD Rd,-Z reads that half of the decremented Z, and makes no draw. -/
theorem ldZDecReadsItsDecrementedZ : Obligations.LdZDecReadsItsDecrementedZ := by
  intro d s h30 h31 hz
  rw [← State.z_sub_one_toNat]
  intro ea hea
  have hread {i : RegNum} (hi : s.cfg.classify ea = .reg i) : ∃ t, exec (.ldZDec d) s = .next t ∧
      t.reg d = (decremented s).reg i ∧ (t.reg 31).toNat * 256 + (t.reg 30).toNat = ea ∧
      t.flags = s.flags ∧ t.pc = s.pc + 1 ∧ RegsSameExcept [d, 30, 31] s t ∧ TouchesNoMemory s t := by
    obtain ⟨t, hexec, hreg, hzt, hflags, hpc, hregs, hmem, hdraws⟩ :=
      exec_ldZDec_of_dataReads h30 h31 hz (dataReads_reg (s := decremented s) hi)
    have hnoDraw : drawsOf s ea = 0 := if_neg (by simp [hi])
    exact ⟨t, hexec, hreg, hzt, hflags, hpc, hregs, hmem, hdraws.trans (congrArg (s.draws + ·) hnoDraw)⟩
  obtain hlow | hhigh := hea
  · obtain ⟨t, hexec, hreg, hrest⟩ := hread hlow
    rw [if_pos hlow]
    exact ⟨t, hexec, hreg ▸ s.setPair_low_toNat zLow (s.z - 1), hrest⟩
  · obtain ⟨t, hexec, hreg, hrest⟩ := hread hhigh
    rw [if_neg (by simp [hhigh])]
    exact ⟨t, hexec, hreg ▸ s.setPair_high_toNat zLow (s.z - 1), hrest⟩

/-! ### Loads through Z with an extension register, and loads beside LDS -/

/-- Z with an extension register is not modelled (92_eei_decisions.md D24). -/
theorem loadThroughZ_rampz {s : State} (hz : s.cfg.rampzBits ≠ 0) (d : RegNum) (ea : Word) (after : State → State) :
    s.loadThroughZ d ea after = .refused .rampzNotModelled := if_neg hz

/-- Settles O32: every LD form loads through Z, past the check of its operand. -/
theorem ldWithExtensionRegisterIsRefused : Obligations.LdWithExtensionRegisterIsRefused := by
  intro d q s hz
  refine ⟨loadThroughZ_rampz hz d s.z id, loadThroughZ_rampz hz d (s.zPlus q) id, fun h30 h31 => ⟨?inc, ?dec⟩⟩
  case inc => exact (exec_ldZInc s h30 h31).trans (loadThroughZ_rampz hz d s.z _)
  case dec => exact (exec_ldZDec s h30 h31).trans (loadThroughZ_rampz (s := decremented s) hz d (s.z - 1) id)

/-- A load through Z that completes is the load at that address, then what the form does after. -/
theorem load_of_loadThroughZ_next {s t : State} {d : RegNum} {ea : Word} {after : State → State}
    (h : s.loadThroughZ d ea after = .next t) : ∃ u, s.load d ea.toNat = .ok u ∧ t = (after u).advance 1 := by
  obtain ⟨-, v, u, hread, rfl⟩ := State.loadThroughZ_next h
  exact ⟨u.setReg d v, by rw [State.load, hread], rfl⟩

/-- In segment 0 the address of LDS is its operand (20_memory.md R46). -/
theorem State.ldsAddress_of_rampdVal_zero {s : State} (h : s.rampdVal = 0) (k : Word) : s.ldsAddress k = k.toNat := by
  rw [State.ldsAddress, h, Nat.zero_mul, Nat.zero_add]

theorem exec_lds_of_load {d : RegNum} {k : Word} {s u : State} (h : s.load d (s.ldsAddress k) = .ok u) :
    exec (.lds d k) s = .next (u.advance 2) := by
  show execLds d k s = _
  rw [execLds, h]

/-- A load writes a register and counts a draw: pc, which its instruction advances after, and SREG are left. -/
theorem State.load_leaves {s u : State} {d : RegNum} {a : Nat} (h : s.load d a = .ok u) :
    u.pc = s.pc ∧ u.flags = s.flags := by
  obtain ⟨v, w, hread, rfl⟩ := State.load_ok h
  obtain ⟨-, rfl⟩ := State.memRead_ok hread
  exact ⟨rfl, rfl⟩

/-- Settles O33: both instructions make the same load, and only then advance pc by their length. -/
theorem ldsAndLdReadAlike : Obligations.LdsAndLdReadAlike := by
  intro d s t _ hrampd h
  obtain ⟨u, hload, rfl⟩ := load_of_loadThroughZ_next h
  rw [exec_lds_of_load (by rwa [State.ldsAddress_of_rampdVal_zero hrampd]), ← (State.load_leaves hload).1]
  rfl

end Sys2Proof.Machine
end

section
/-! What instructions read and what they leave alone: the flags that only some write, and the parts of the state that
none reads (10_state.md R27; 20_memory.md R43; 00_scope.md R2). -/
namespace Sys2Proof.Machine

open Sys2Proof.Safety

/-! ### Loads that complete -/

theorem load_of_exec_lds_next {d : RegNum} {k : Word} {s t : State} (h : exec (.lds d k) s = .next t) :
    ∃ u, s.load d (s.ldsAddress k) = .ok u ∧ t = u.advance 2 := by
  replace h : execLds d k s = .next t := h
  unfold execLds at h
  split at h
  · next u hu => exact ⟨u, hu, by simpa using h.symm⟩
  · cases h

/-- LD Rd,Z+ completes only where d is no half of Z, by a load through Z. -/
theorem loadThroughZ_of_exec_ldZInc_next {d : RegNum} {s t : State} (h : exec (.ldZInc d) s = .next t) :
    (d ≠ 30 ∧ d ≠ 31) ∧ s.loadThroughZ d s.z (fun u => u.setPair zLow (s.z + 1)) = .next t := by
  by_cases hd : d = 30 ∨ d = 31
  · rw [exec_ldZInc_halfOfZ s hd] at h
    cases h
  · rw [not_or] at hd
    exact ⟨hd, (exec_ldZInc s hd.1 hd.2).symm.trans h⟩

/-- LD Rd,-Z completes only where d is no half of Z, by a load through the decremented Z. -/
theorem loadThroughZ_of_exec_ldZDec_next {d : RegNum} {s t : State} (h : exec (.ldZDec d) s = .next t) :
    (d ≠ 30 ∧ d ≠ 31) ∧ (decremented s).loadThroughZ d (s.z - 1) id = .next t := by
  by_cases hd : d = 30 ∨ d = 31
  · rw [exec_ldZDec_halfOfZ s hd] at h
    cases h
  · rw [not_or] at hd
    exact ⟨hd, (exec_ldZDec s hd.1 hd.2).symm.trans h⟩

/-! ### The flags a load leaves -/

theorem loadThroughZ_flags {s t : State} {d : RegNum} {ea : Word} {after : State → State}
    (hafter : ∀ u, (after u).flags = u.flags) (h : s.loadThroughZ d ea after = .next t) : t.flags = s.flags := by
  obtain ⟨u, hload, rfl⟩ := load_of_loadThroughZ_next h
  exact (hafter u).trans (State.load_leaves hload).2

/-- No load writes a flag (R27). -/
theorem flags_of_readsDataSpace {i : Instr} {s t : State} (hi : readsDataSpace i = true) (h : exec i s = .next t) :
    t.flags = s.flags := by
  cases i with
  | movw | add | and | mov | andi | ldi | adiw | lsr => cases hi
  | lds d k =>
    obtain ⟨u, hload, rfl⟩ := load_of_exec_lds_next h
    exact (State.load_leaves hload).2
  | ldZ d => exact loadThroughZ_flags (fun _ => rfl) h
  | lddZ d q => exact loadThroughZ_flags (fun _ => rfl) h
  | ldZInc d =>
    exact loadThroughZ_flags (after := (·.setPair zLow (s.z + 1))) (fun _ => rfl) (loadThroughZ_of_exec_ldZInc_next h).2
  | ldZDec d => exact loadThroughZ_flags (s := decremented s) (fun _ => rfl) (loadThroughZ_of_exec_ldZDec_next h).2

/-- ADD, ADIW, AND, ANDI and LSR: the instructions that write flags (R27). -/
def writesFlags : Instr → Bool
  | .add _ _ => true
  | .adiw _ _ => true
  | .and _ _ => true
  | .andi _ _ => true
  | .lsr _ => true
  | _ => false

theorem flags_of_not_writesFlags {i : Instr} {s t : State} (hi : writesFlags i = false) (h : exec i s = .next t) :
    t.flags = s.flags := by
  cases i with
  | add | adiw | and | andi | lsr => cases hi
  | movw d r => cases h; rfl
  | mov d r => cases h; rfl
  | ldi d K => cases h; rfl
  | lds | ldZ | lddZ | ldZInc | ldZDec => exact flags_of_readsDataSpace rfl h

/-- Settles O34: I and T from what every instruction leaves; the other flags from the state each instruction that writes
flags leads to, every other instruction leaving them all. -/
theorem flagsAreWrittenOnlyAsTabled : Obligations.FlagsAreWrittenOnlyAsTabled := by
  intro i s t h
  have he := exec_commonEffect h
  refine ⟨he.flagI, he.flagT, ?_⟩
  cases i with
  | add d r => exact ⟨fun hadd => absurd rfl (hadd d r), fun hadd => absurd rfl (hadd d r), nofun, nofun, nofun⟩
  | adiw d K => cases h; exact ⟨fun _ => rfl, fun _ hadiw => absurd rfl (hadiw d K), nofun, nofun, nofun⟩
  | lsr d => cases h; exact ⟨fun _ => rfl, fun _ _ hlsr => absurd rfl (hlsr d), nofun, nofun, fun _ _ => rfl⟩
  | and d r =>
    cases h
    exact ⟨fun _ => rfl, fun _ _ _ => ⟨rfl, fun hand => absurd rfl (hand d r)⟩, fun _ _ _ => rfl, nofun, nofun⟩
  | andi d K =>
    cases h
    exact ⟨fun _ => rfl, fun _ _ _ => ⟨rfl, fun _ handi => absurd rfl (handi d K)⟩, nofun, fun _ _ _ => rfl, nofun⟩
  | movw | mov | ldi | lds | ldZ | lddZ | ldZInc | ldZDec =>
    have hflags := flags_of_not_writesFlags rfl h
    exact ⟨fun _ => congrArg Flags.h hflags, fun _ _ _ => ⟨congrArg Flags.c hflags, fun _ _ => hflags⟩,
      nofun, nofun, nofun⟩

/-! ### What a load does not look at -/

/-- A change φ of parts of the state that loads neither write nor look at, but for SREG read as a byte. -/
structure LoadsIgnore (φ : State → State) : Prop where
  reg : ∀ s d, (φ s).reg d = s.reg d
  setReg : ∀ s d v, (φ s).setReg d v = φ (s.setReg d v)
  advance : ∀ s n, (φ s).advance n = φ (s.advance n)
  rampzBits : ∀ s, (φ s).cfg.rampzBits = s.cfg.rampzBits
  rampdVal : ∀ s, (φ s).rampdVal = s.rampdVal
  classify : ∀ s a, (φ s).cfg.classify a = s.cfg.classify a
  ram : ∀ s, (φ s).ram = s.ram
  draws : ∀ s, (φ s).draws = s.draws
  countDraw : ∀ s, { φ s with draws := s.draws + 1 } = φ { s with draws := s.draws + 1 }

/-- At an address of class c, data space reads the same before and after the change φ. -/
def ReadsAlike (φ : State → State) (c : AddrClass) : Prop :=
  ∀ s a v t, s.cfg.classify a = c → s.memRead a = .ok (v, t) → (φ s).memRead a = .ok (v, φ t)

section
variable {φ : State → State} (hφ : LoadsIgnore φ)
include hφ

theorem LoadsIgnore.setPair (s : State) (d : RegNum) (w : Word) : (φ s).setPair d w = φ (s.setPair d w) := by
  rw [State.setPair, hφ.setReg, hφ.setReg, State.setPair]

theorem LoadsIgnore.z (s : State) : (φ s).z = s.z := by
  rw [State.z, State.z, State.pair, State.pair, hφ.reg, hφ.reg]

/-- Data space reads the same but at the address of SREG, and there too where φ leaves the flags. -/
theorem LoadsIgnore.readsAlike {c : AddrClass} (hc : c = .sreg → ∀ s, (φ s).flags = s.flags) : ReadsAlike φ c := by
  rintro s a v t rfl h
  unfold State.memRead at h ⊢
  rw [hφ.classify]
  cases hclass : s.cfg.classify a <;> rw [hclass] at h <;> cases h
  case reg i => exact congrArg (fun b => Except.ok (b, φ s)) (hφ.reg s i)
  case sreg => exact congrArg (fun f : Flags => Except.ok (f.toByte, φ s)) (hc hclass s)
  case rampd => exact congrArg (fun n => Except.ok (BitVec.ofNat 8 n, φ s)) (hφ.rampdVal s)
  case ram => exact congrArg (fun m : Memory => Except.ok (m.read a, φ s)) (hφ.ram s)
  case io => rw [hφ.draws, hφ.countDraw]

theorem LoadsIgnore.load {s u : State} {d : RegNum} {a : Nat} (hread : ReadsAlike φ (s.cfg.classify a))
    (h : s.load d a = .ok u) : (φ s).load d a = .ok (φ u) := by
  obtain ⟨v, w, hw, rfl⟩ := State.load_ok h
  rw [State.load, hread s a v w rfl hw]
  exact congrArg Except.ok (hφ.setReg w d v)

theorem LoadsIgnore.loadThroughZ {s t : State} {d : RegNum} {ea : Word} {after : State → State}
    (hread : ReadsAlike φ (s.cfg.classify ea.toNat)) (hafter : ∀ u, after (φ u) = φ (after u))
    (h : s.loadThroughZ d ea after = .next t) : (φ s).loadThroughZ d ea after = .next (φ t) := by
  obtain ⟨hz, -⟩ := State.loadThroughZ_next h
  obtain ⟨u, hload, rfl⟩ := load_of_loadThroughZ_next h
  rw [State.loadThroughZ, if_pos ((hφ.rampzBits s).trans hz), hφ.load hread hload, ← hφ.advance, ← hafter]

/-- A load completes alike after a change that loads ignore. -/
theorem LoadsIgnore.exec {i : Instr} {s t : State} (hi : readsDataSpace i = true)
    (hread : ∀ a, dataAddress i s = some a → ReadsAlike φ (s.cfg.classify a)) (h : exec i s = .next t) :
    Machine.exec i (φ s) = .next (φ t) := by
  cases i with
  | movw | add | and | mov | andi | ldi | adiw | lsr => cases hi
  | lds d k =>
    obtain ⟨u, hload, rfl⟩ := load_of_exec_lds_next h
    have haddr : (φ s).ldsAddress k = s.ldsAddress k := by rw [State.ldsAddress, State.ldsAddress, hφ.rampdVal]
    rw [exec_lds_of_load (haddr.symm ▸ hφ.load (hread _ rfl) hload), hφ.advance]
  | ldZ d =>
    show (φ s).loadThroughZ d (φ s).z id = _
    rw [hφ.z]
    exact hφ.loadThroughZ (hread _ rfl) (fun _ => rfl) h
  | lddZ d q =>
    show (φ s).loadThroughZ d ((φ s).z + q.setWidth 16) id = _
    rw [hφ.z]
    exact hφ.loadThroughZ (hread _ rfl) (fun _ => rfl) h
  | ldZInc d =>
    obtain ⟨⟨h30, h31⟩, hload⟩ := loadThroughZ_of_exec_ldZInc_next h
    rw [exec_ldZInc _ h30 h31, hφ.z]
    exact hφ.loadThroughZ (hread _ rfl) (fun u => hφ.setPair u zLow _) hload
  | ldZDec d =>
    obtain ⟨⟨h30, h31⟩, hload⟩ := loadThroughZ_of_exec_ldZDec_next h
    rw [exec_ldZDec _ h30 h31, hφ.z, hφ.setPair]
    exact hφ.loadThroughZ (s := decremented s) (hread _ rfl) (fun _ => rfl) hload

end

/-! ### SREG as an input -/

theorem loadsIgnore_setFlags (f : Flags) : LoadsIgnore (·.setFlags f) :=
  ⟨fun _ _ => rfl, fun _ _ _ => rfl, fun _ _ => rfl, fun _ => rfl, fun _ => rfl, fun _ _ => rfl, fun _ => rfl,
    fun _ => rfl, fun _ => rfl⟩

/-- Settles O35: the loads ignore the flags; every other instruction computes its result from registers and constants,
and its flags from operands and result. -/
theorem noInstructionTakesAFlagAsInput : Obligations.NoInstructionTakesAFlagAsInput := by
  intro i s t f h hread
  cases i with
  | movw d r => cases h; exact ⟨_, rfl, fun _ => rfl, rfl, rfl, .inl ⟨rfl, rfl⟩⟩
  | mov d r => cases h; exact ⟨_, rfl, fun _ => rfl, rfl, rfl, .inl ⟨rfl, rfl⟩⟩
  | ldi d K => cases h; exact ⟨_, rfl, fun _ => rfl, rfl, rfl, .inl ⟨rfl, rfl⟩⟩
  | add d r =>
    cases h
    exact ⟨_, rfl, fun _ => rfl, rfl, rfl, .inr ⟨rfl, rfl, rfl, rfl, .inl rfl, .inl rfl, rfl, rfl⟩⟩
  | adiw d K =>
    cases h
    exact ⟨_, rfl, fun _ => rfl, rfl, rfl, .inr ⟨rfl, rfl, rfl, rfl, .inl rfl, .inr ⟨rfl, rfl⟩, rfl, rfl⟩⟩
  | lsr d =>
    cases h
    exact ⟨_, rfl, fun _ => rfl, rfl, rfl, .inr ⟨rfl, rfl, rfl, rfl, .inl rfl, .inr ⟨rfl, rfl⟩, rfl, rfl⟩⟩
  | and d r =>
    cases h
    exact ⟨_, rfl, fun _ => rfl, rfl, rfl, .inr ⟨rfl, rfl, rfl, rfl, .inr ⟨rfl, rfl⟩, .inr ⟨rfl, rfl⟩, rfl, rfl⟩⟩
  | andi d K =>
    cases h
    exact ⟨_, rfl, fun _ => rfl, rfl, rfl, .inr ⟨rfl, rfl, rfl, rfl, .inr ⟨rfl, rfl⟩, .inr ⟨rfl, rfl⟩, rfl, rfl⟩⟩
  | lds | ldZ | lddZ | ldZInc | ldZDec =>
    have hignore := loadsIgnore_setFlags f
    have hload := hignore.exec rfl (fun a ha => hignore.readsAlike fun hsreg => absurd hsreg (hread a ha)) h
    exact ⟨_, hload, fun _ => rfl, rfl, rfl, .inl ⟨flags_of_readsDataSpace rfl h, rfl⟩⟩

/-! ### CORE as an input -/

theorem loadsIgnore_withCore (core : CoreVariant) : LoadsIgnore (withCore · core) :=
  ⟨fun _ _ => rfl, fun _ _ _ => rfl, fun _ _ => rfl, fun _ => rfl, fun _ => rfl, fun _ _ => rfl, fun _ => rfl,
    fun _ => rfl, fun _ => rfl⟩

/-- Settles O36: the loads ignore the core variant, and no other instruction reads a parameter. -/
theorem resultDoesNotDependOnCoreVariant : Obligations.ResultDoesNotDependOnCoreVariant := by
  intro i s t core h
  cases i with
  | movw d r => cases h; rfl
  | add d r => cases h; rfl
  | and d r => cases h; rfl
  | mov d r => cases h; rfl
  | andi d K => cases h; rfl
  | ldi d K => cases h; rfl
  | adiw d K => cases h; rfl
  | lsr d => cases h; rfl
  | lds | ldZ | lddZ | ldZInc | ldZDec =>
    have hignore := loadsIgnore_withCore core
    exact hignore.exec rfl (fun _ _ => hignore.readsAlike fun _ _ => rfl) h

/-! ### Data space as an input, and the cycles tables -/

/-- Settles O37: the state that each instruction but the loads leads to is written without data space. -/
theorem onlyLoadsTouchDataSpace : Obligations.OnlyLoadsTouchDataSpace := by
  intro i s ram rampd draws hi
  cases i with
  | lds | ldZ | lddZ | ldZInc | ldZDec => cases hi
  | movw d r => exact ⟨_, exec_movw d r s, rfl, rfl⟩
  | add d r => exact ⟨_, exec_add d r s, rfl, rfl⟩
  | and d r => exact ⟨_, exec_and d r s, rfl, rfl⟩
  | mov d r => exact ⟨_, exec_mov d r s, rfl, rfl⟩
  | andi d K => exact ⟨_, exec_andi d K s, rfl, rfl⟩
  | ldi d K => exact ⟨_, exec_ldi d K s, rfl, rfl⟩
  | adiw d K => exact ⟨_, exec_adiw d K s, rfl, rfl⟩
  | lsr d => exact ⟨_, exec_lsr d s, rfl, rfl⟩

/-- Settles O43: every default device has all instructions but ADIW and LDD, whose entries are N/A on AVRrc alone. -/
theorem notAvailableMatchesTheCyclesTables : Obligations.NotAvailableMatchesTheCyclesTables := by
  intro core i
  cases i with
  | movw | add | and | mov | andi | ldi | lds | lsr => exact iff_of_false nofun nofun
  | ldZ | ldZInc | ldZDec => cases core <;> exact iff_of_false nofun nofun
  | adiw | lddZ =>
    cases core
    case avrrc => exact iff_of_true rfl rfl
    all_goals exact iff_of_false nofun nofun

end Sys2Proof.Machine
end

section
/-! The obligation about the assembler's text (30_encoding.md R77): the printed line is cut where the printer joined it,
and each operand reads back. -/
namespace Sys2Proof.Asm

/-! ### Cutting a line -/

theorem cut_of_not_mem {c : Char} {xs : List Char} (h : c ∉ xs) : cut c xs = (xs, []) := by
  induction xs with
  | nil => rfl
  | cons x xs ih =>
    obtain ⟨hx, hxs⟩ := List.ne_and_not_mem_of_not_mem_cons h
    rw [cut, if_neg (Ne.symm hx), ih hxs]

theorem cut_append_cons {c : Char} {xs : List Char} (h : c ∉ xs) (ys : List Char) :
    cut c (xs ++ c :: ys) = (xs, ys) := by
  induction xs with
  | nil => exact if_pos rfl
  | cons x xs ih =>
    obtain ⟨hx, hxs⟩ := List.ne_and_not_mem_of_not_mem_cons h
    rw [List.cons_append, cut, if_neg (Ne.symm hx), ih hxs]

/-- Text in lower case, as the reader takes it (D25). -/
def lower (cs : List Char) : List Char := cs.map Char.toLower

/-- A mnemonic as the printer writes it: not empty, in lower case, with no character that ends it, and no label. -/
def isMnemonic (m : List Char) : Bool :=
  m != [] && lower m == m && !m.contains ' ' && !m.contains ';' && m.getLast? != some ':'

/-- An operand as the printer writes it: with no character that ends it, in upper case or lower. -/
def isOperand (cs : List Char) : Bool :=
  cs != [] && cs.all fun c => c != ';' && c.toLower != ' ' && c.toLower != ','

theorem isMnemonic_iff {m : List Char} : isMnemonic m = true ↔
    m ≠ [] ∧ lower m = m ∧ ' ' ∉ m ∧ ';' ∉ m ∧ m.getLast? ≠ some ':' := by
  simp [isMnemonic, and_assoc]

theorem isOperand_iff {cs : List Char} : isOperand cs = true ↔
    cs ≠ [] ∧ ∀ c ∈ cs, c ≠ ';' ∧ c.toLower ≠ ' ' ∧ c.toLower ≠ ',' := by
  simp [isOperand, and_assoc]

/-! ### Operands -/

theorem isOperand_register : ∀ d : RegNum, isOperand (register d) = true := by decide

theorem readRegister_register : ∀ d : RegNum, readRegister (lower (register d)) = some d := by decide +kernel

theorem isOperand_registerPair : ∀ d : RegNum, isOperand (registerPair d) = true := by decide

theorem readPair_registerPair : ∀ d : RegNum, isPairLow d = true → readPair (lower (registerPair d)) = some d := by
  decide +kernel

theorem isOperand_decimal_byte : ∀ K : Byte, isOperand (decimal K.toNat) = true := by decide +kernel

theorem number_decimal_byte : ∀ K : Byte, number 256 (lower (decimal K.toNat)) = some K.toNat := by decide +kernel

theorem isOperand_decimal_bits6 : ∀ K : BitVec 6, isOperand (decimal K.toNat) = true := by decide +kernel

theorem number_decimal_bits6 : ∀ K : BitVec 6, number 64 (lower (decimal K.toNat)) = some K.toNat := by decide +kernel

theorem digitValue_hexDigit : ∀ b : BitVec 4, digitValue 16 (hexDigit b).toLower = some b.toNat := by decide

theorem digits_cons {base v : Nat} {c : Char} (h : digitValue base c = some v) (acc : Nat) (cs : List Char) :
    digits base acc (c :: cs) = digits base (acc * base + v) cs := by
  rw [digits, h]

/-- The four hexadecimal digits of a word make it up. -/
theorem word_of_nibbles (k : Word) :
    (((0 * 16 + (k.extractLsb' 12 4).toNat) * 16 + (k.extractLsb' 8 4).toNat) * 16 + (k.extractLsb' 4 4).toNat) * 16 +
      (k.extractLsb' 0 4).toNat = k.toNat := by
  simp only [BitVec.extractLsb'_toNat, Nat.shiftRight_eq_div_pow]
  omega

theorem number_hex {bound n : Nat} {c : Char} {cs : List Char} (h : digits 16 0 (c :: cs) = some n) (hn : n < bound) :
    number bound ('0' :: 'x' :: c :: cs) = some n := by
  simp [number, h, hn]

theorem number_address (k : Word) : number 65536 (lower (address k)) = some k.toNat := by
  refine number_hex ?_ k.isLt
  rw [digits_cons (digitValue_hexDigit _)]
  show digits 16 _ [(hexDigit (k.extractLsb' 8 4)).toLower, (hexDigit (k.extractLsb' 4 4)).toLower,
    (hexDigit (k.extractLsb' 0 4)).toLower] = _
  rw [digits_cons (digitValue_hexDigit _), digits_cons (digitValue_hexDigit _), digits_cons (digitValue_hexDigit _),
    word_of_nibbles, digits]

theorem isOperand_append {a b : List Char} (ha : isOperand a = true) (hb : isOperand b = true) :
    isOperand (a ++ b) = true := by
  obtain ⟨hne, ha⟩ := isOperand_iff.1 ha
  obtain ⟨-, hb⟩ := isOperand_iff.1 hb
  exact isOperand_iff.2 ⟨List.append_ne_nil_of_left_ne_nil hne b, List.forall_mem_append.2 ⟨ha, hb⟩⟩

theorem isOperand_address (k : Word) : isOperand (address k) = true := by
  have hdigit : ∀ b : BitVec 4, isOperand [hexDigit b] = true := by decide
  refine isOperand_append (a := ['0', 'x']) (by decide) (isOperand_append (hdigit _) ?_)
  exact isOperand_append (hdigit _) (isOperand_append (hdigit _) (hdigit _))

section
variable {cs : List Char} (h : isOperand cs = true)
include h

theorem semicolon_not_mem_of_isOperand : ';' ∉ cs := fun hmem => ((isOperand_iff.1 h).2 _ hmem).1 rfl

theorem space_not_mem_lower_of_isOperand : ' ' ∉ lower cs := fun hmem => by
  obtain ⟨c, hc, hlow⟩ := List.mem_map.1 hmem
  exact ((isOperand_iff.1 h).2 c hc).2.1 hlow

theorem comma_not_mem_lower_of_isOperand : ',' ∉ lower cs := fun hmem => by
  obtain ⟨c, hc, hlow⟩ := List.mem_map.1 hmem
  exact ((isOperand_iff.1 h).2 c hc).2.2 hlow

theorem lower_ne_nil_of_isOperand : lower cs ≠ [] := fun hnil =>
  (isOperand_iff.1 h).1 (List.map_eq_nil_iff.1 hnil)

end

/-! ### Lines -/

section
variable {m : List Char} (hm : isMnemonic m = true)
include hm

/-- A line begins with its mnemonic. -/
theorem skipSpaces_mnemonic_append (cs : List Char) : skipSpaces (m ++ cs) = m ++ cs := by
  obtain ⟨hne, -, hspace, -⟩ := isMnemonic_iff.1 hm
  obtain ⟨c, m, rfl⟩ := List.exists_cons_of_ne_nil hne
  have hc : c ≠ ' ' := (List.ne_and_not_mem_of_not_mem_cons hspace).1.symm
  exact List.dropWhile_cons_of_neg (by simpa using hc)

/-- The reader takes a line of a mnemonic and operands, with no comment and no label, as a statement in lower case. -/
theorem read_line {ops : List Char} (hops : ';' ∉ ops) :
    read (m ++ ' ' :: ops) = readStatement (m ++ ' ' :: lower ops) := by
  obtain ⟨-, hlower, hspace, hsemi, hlabel⟩ := isMnemonic_iff.1 hm
  have hcomment : ';' ∉ m ++ ' ' :: ops := by simp [hsemi, hops]
  have hlow : (m ++ ' ' :: ops).map Char.toLower = m ++ ' ' :: lower ops := by
    rw [List.map_append, List.map_cons]
    exact congrArg (· ++ ' ' :: lower ops) hlower
  simp only [read, cut_of_not_mem hcomment, hlow, skipSpaces_mnemonic_append hm, cut_append_cons hspace, if_neg hlabel]

/-- A statement of two operands is read by its mnemonic. -/
theorem readStatement_two {a b : List Char} {i : Instr} (ha : ' ' ∉ a) (hcomma : ',' ∉ a) (hb : ' ' ∉ b) (hne : b ≠ [])
    (hread : readTwo m a b = some i) (hwf : i.wellFormed = true) :
    readStatement (m ++ ' ' :: (a ++ ',' :: b)) = some i := by
  obtain ⟨-, -, hspace, -⟩ := isMnemonic_iff.1 hm
  have hops : (a ++ ',' :: b).filter (· != ' ') = a ++ ',' :: b := by
    refine List.filter_eq_self.2 fun c hc => bne_iff_ne.2 ?_
    rintro rfl
    simp [ha, hb] at hc
  simp only [readStatement, skipSpaces_mnemonic_append hm, cut_append_cons hspace, hops, cut_append_cons hcomma,
    if_neg hne, hread, if_pos hwf]

/-- The line of an instruction of two operands is read by its mnemonic from the operands in lower case. -/
theorem read_twoOperands {name : String} (hname : name.toList = m) {a b : List Char} {i : Instr}
    (ha : isOperand a = true) (hb : isOperand b = true)
    (hread : readTwo m (lower a) (lower b) = some i) (hwf : i.wellFormed = true) :
    read (twoOperands name a b) = some i := by
  subst hname
  have hline : twoOperands name a b = name.toList ++ ' ' :: (a ++ ',' :: b) := by simp [twoOperands]
  have hsemi : ';' ∉ a ++ ',' :: b := by
    simp [semicolon_not_mem_of_isOperand ha, semicolon_not_mem_of_isOperand hb]
  have hlow : lower (a ++ ',' :: b) = lower a ++ ',' :: lower b := by
    rw [lower, List.map_append, List.map_cons]
    rfl
  rw [hline, read_line hm hsemi, hlow]
  exact readStatement_two hm (space_not_mem_lower_of_isOperand ha) (comma_not_mem_lower_of_isOperand ha)
    (space_not_mem_lower_of_isOperand hb) (lower_ne_nil_of_isOperand hb) hread hwf

end

/-- A statement of one operand is LSR's. -/
theorem readStatement_lsr {a : List Char} {d : RegNum} (ha : ' ' ∉ a) (hcomma : ',' ∉ a)
    (hread : readRegister a = some d) : readStatement ("lsr".toList ++ ' ' :: a) = some (.lsr d) := by
  have hops : a.filter (· != ' ') = a :=
    List.filter_eq_self.2 fun c hc => bne_iff_ne.2 fun hspace => ha (hspace ▸ hc)
  have hm : isMnemonic "lsr".toList = true := by decide
  obtain ⟨-, -, hspace, -⟩ := isMnemonic_iff.1 hm
  simp only [readStatement, skipSpaces_mnemonic_append hm, cut_append_cons hspace, hops, cut_of_not_mem hcomma,
    if_true, hread, Option.map_some, Instr.wellFormed]

/-! ### Instructions -/

/-- An operand of a displaced load through Z. -/
theorem isOperand_displacement (q : BitVec 6) : isOperand (['Z', '+'] ++ decimal q.toNat) = true :=
  isOperand_append (by decide) (isOperand_decimal_bits6 q)

theorem readZ_displacement (d : RegNum) {q : BitVec 6} (hq : q ≠ 0) :
    readZ true d (lower (['Z', '+'] ++ decimal q.toNat)) = some (.lddZ d q) := by
  have hne : q.toNat ≠ 0 := fun h => hq (BitVec.eq_of_toNat_eq h)
  show (number 64 (lower (decimal q.toNat))).map _ = _
  rw [number_decimal_bits6, Option.map_some, if_neg hne, BitVec.ofNat_toNat, BitVec.setWidth_eq]

section
variable {name : String} (hm : isMnemonic name.toList = true) {d : RegNum}
include hm

/-- A line whose first operand is one register: `reader` reads the second. -/
theorem read_register_operand {reader : RegNum → List Char → Option Instr}
    (hreader : ∀ a b, readTwo name.toList a b = (readRegister a).bind fun d => reader d b)
    {b : List Char} {i : Instr} (hb : isOperand b = true) (hread : reader d (lower b) = some i)
    (hwf : i.wellFormed = true) : read (twoOperands name (register d) b) = some i := by
  refine read_twoOperands hm rfl (isOperand_register d) hb ?_ hwf
  rw [hreader, readRegister_register]
  exact hread

/-- A line of two registers: ADD, AND and MOV. -/
theorem read_register_register {mk : RegNum → RegNum → Instr}
    (hreader : ∀ a b, readTwo name.toList a b = (readRegister a).bind fun d => (readRegister b).map fun r => mk d r)
    {r : RegNum} (hwf : (mk d r).wellFormed = true) :
    read (twoOperands name (register d) (register r)) = some (mk d r) := by
  refine read_register_operand hm hreader (isOperand_register r) ?_ hwf
  rw [readRegister_register, Option.map_some]

/-- A line of a register and a constant of eight bits: ANDI and LDI. -/
theorem read_register_byte {mk : RegNum → Byte → Instr}
    (hreader : ∀ a b, readTwo name.toList a b =
      (readRegister a).bind fun d => (number 256 b).map fun K => mk d (BitVec.ofNat 8 K))
    {K : Byte} (hwf : (mk d K).wellFormed = true) :
    read (twoOperands name (register d) (decimal K.toNat)) = some (mk d K) := by
  refine read_register_operand hm hreader (isOperand_decimal_byte K) ?_ hwf
  rw [number_decimal_byte, Option.map_some, BitVec.ofNat_toNat, BitVec.setWidth_eq]

end

theorem read_movw {d r : RegNum} (hwf : (Instr.movw d r).wellFormed = true) :
    read (print (.movw d r)) = some (.movw d r) := by
  obtain ⟨hd, hr⟩ := Bool.and_eq_true_iff.1 hwf
  refine read_twoOperands (m := "movw".toList) (by decide) rfl (isOperand_registerPair d) (isOperand_registerPair r) ?_
    hwf
  show (readPair _).bind (fun d => (readPair _).map _) = _
  rw [readPair_registerPair d hd, Option.bind_some, readPair_registerPair r hr, Option.map_some]

theorem read_adiw {d : RegNum} {K : BitVec 6} (hwf : (Instr.adiw d K).wellFormed = true) :
    read (print (.adiw d K)) = some (.adiw d K) := by
  have hd : isPairLow d = true := (Bool.and_eq_true_iff.1 hwf).2
  refine read_twoOperands (m := "adiw".toList) (by decide) rfl (isOperand_registerPair d) (isOperand_decimal_bits6 K) ?_
    hwf
  show (readPair _).bind (fun d => (number 64 _).map fun K => Instr.adiw d (BitVec.ofNat 6 K)) = _
  rw [readPair_registerPair d hd, Option.bind_some, number_decimal_bits6, Option.map_some, BitVec.ofNat_toNat,
    BitVec.setWidth_eq]

theorem read_lds (d : RegNum) (k : Word) : read (print (.lds d k)) = some (.lds d k) := by
  have hread : (number 65536 (lower (address k))).map (fun k => Instr.lds d (BitVec.ofNat 16 k)) = some (.lds d k) := by
    rw [number_address, Option.map_some, BitVec.ofNat_toNat, BitVec.setWidth_eq]
  exact read_register_operand (name := "lds") (by decide)
    (reader := fun d b => (number 65536 b).map fun k => .lds d (BitVec.ofNat 16 k)) (fun _ _ => rfl)
    (isOperand_address k) hread rfl

theorem read_lsr (d : RegNum) : read (print (.lsr d)) = some (.lsr d) := by
  have ha := isOperand_register d
  have hline := read_line (m := "lsr".toList) (by decide) (semicolon_not_mem_of_isOperand ha)
  exact hline.trans (readStatement_lsr (space_not_mem_lower_of_isOperand ha) (comma_not_mem_lower_of_isOperand ha)
    (readRegister_register d))

/-- The three forms of LD, by their operand of Z. -/
theorem read_ld {d : RegNum} {b : List Char} {i : Instr} (hb : isOperand b = true)
    (hread : readZ false d (lower b) = some i) (hwf : i.wellFormed = true) :
    read (twoOperands "ld" (register d) b) = some i :=
  read_register_operand (by decide) (reader := readZ false) (fun _ _ => rfl) hb hread hwf

/-- Settles O44: instruction by instruction, the mnemonic chooses the readers of the operands, and each reads back what
the printer wrote. -/
theorem assemblerReadsWhatIsPrinted : Obligations.AssemblerReadsWhatIsPrinted := by
  intro i hi
  cases i with
  | movw d r => exact read_movw hi
  | add d r => exact read_register_register (mk := .add) (by decide) (fun _ _ => rfl) hi
  | and d r => exact read_register_register (mk := .and) (by decide) (fun _ _ => rfl) hi
  | mov d r => exact read_register_register (mk := .mov) (by decide) (fun _ _ => rfl) hi
  | andi d K => exact read_register_byte (mk := .andi) (by decide) (fun _ _ => rfl) hi
  | ldi d K => exact read_register_byte (mk := .ldi) (by decide) (fun _ _ => rfl) hi
  | adiw d K => exact read_adiw hi
  | lds d k => exact read_lds d k
  | lsr d => exact read_lsr d
  | ldZ d => exact read_ld (by decide) rfl hi
  | ldZInc d => exact read_ld (by decide) rfl hi
  | ldZDec d => exact read_ld (by decide) rfl hi
  | lddZ d q =>
    exact read_register_operand (by decide) (reader := readZ true) (fun _ _ => rfl) (isOperand_displacement q)
      (readZ_displacement d (bne_iff_ne.1 hi)) hi

end Sys2Proof.Asm
end
